-- ==== Sys2Proof/Word.lean ====
section
/-! DEFINITION. The word types of the DAC command encoder (00_scope.md R10). -/

namespace Sys2Proof

/-- One byte of the frame or of the caller's buffer (R22). -/
abbrev Byte := BitVec 8

/-- One bit of a port (R10: a 1-bit value is written 0 or 1). -/
abbrev Bit := BitVec 1

/-- The encoded value field, `VALUE_BITS` = 12 bits (R7). -/
abbrev Code := BitVec 12

/-- The 16-bit word view of a frame (R24). -/
abbrev FrameWord := BitVec 16

end Sys2Proof
end

