-- ==== Sys2Proof/Config.lean ====
section
/-! DEFINITION. What is fixed for every encoder (00_scope.md R6 to R8) and the free values (`any8`, R11). -/

namespace Sys2Proof.Config

/-- `FRAME_LEN`: the frame and the output buffer are exactly 2 bytes (R6). -/
abbrev frameLen : Nat := 2

/-- `VALUE_BITS`: the encoded value field is 12 bits wide (R7). -/
abbrev valueBits : Nat := 12

/-- The least width of the `value` port a configuration may have (R8: `VW ≥ 12`). -/
abbrev minValueWidth : Nat := 12

/-- The spec's default width of the `value` port (R8, 92_eei_decisions.md D1). -/
abbrev defaultValueWidth : Nat := 16

/-- `any8`: an arbitrary byte, a draw under no law (R11). The argument is the number of the draw
(log entry 8: DESIGN CHOICE, safe: `State.draws` counts them). It has no body, so nothing can be proved of its value. -/
opaque freeByte : Nat → Byte

/-- An arbitrary bit, the same for the 1-bit `status` port outside an invocation
(70_reset_and_hazards.md R63, 93_implementation_defined.md A7; log entry 9: DEDUCED, safe). -/
opaque freeBit : Nat → Bit

end Sys2Proof.Config
end

