-- ==== Sys2Proof/Syntax.lean ====
section
/-! DEFINITION. The one operation of the encoder as syntax (30_encoding.md R34, R35; opcode_table.json row ENCODE). -/

namespace Sys2Proof

/-- An invocation of the encoder. There is no opcode field: every invocation is an ENCODE (R34). -/
inductive Instr where
  /-- `ENCODE(cfg_valid, ab, buf, ga, shdn, value, out_len)` (R35): the seven input ports of
  10_state.md R15. A flag is one bit, `true` is 1 (R16, 92 D6, D7). `value` is an unsigned natural (R10),
  which `Instr.fitsPort` bounds by the port's width; `out_len` is an unbounded natural (R9). -/
  | encode (cfgValid ab buf ga shdn : Bool) (value outLen : Nat)
  deriving DecidableEq, Repr

end Sys2Proof
end

