-- ==== Sys2Proof/WellFormed.lean ====
section
/-! DEFINITION. Which invocations a port of VW bits can carry, and which of them the spec calls legal. -/

namespace Sys2Proof

/-- The number offered is one the VW-bit `value` port can carry: it lies in `[0, 2^VW)` (R15, R17). -/
def Instr.fitsPort (vw : Nat) : Instr → Bool
  | .encode _ _ _ _ _ value _ => decide (value < 2 ^ vw)

/-- The width is one a configuration may have (R8: `VW ≥ 12`). -/
def widthAllowed (vw : Nat) : Bool := decide (Config.minValueWidth ≤ vw)

/-- An invocation that an encoder with a `value` port of `vw` bits can be given (R8, R15). An illegal
invocation (R39) is well formed: it is given to the encoder, which answers with the parameter error. -/
def Instr.wellFormed (vw : Nat) (i : Instr) : Bool := widthAllowed vw && i.fitsPort vw

/-- A legal invocation: `cfg_valid = 1` and `out_len = 2`; every other field is free (R35, R39). -/
def Instr.legal : Instr → Bool
  | .encode cfgValid _ _ _ _ _ outLen => cfgValid && decide (outLen = Config.frameLen)

/-- A legal invocation whose frame carries its value whole: `value` in `[0, 4095]` (R44, R64). -/
def Instr.framed : Instr → Bool
  | .encode cfgValid ab buf ga shdn value outLen =>
    (Instr.encode cfgValid ab buf ga shdn value outLen).legal && decide (value < 2 ^ Config.valueBits)

end Sys2Proof
end

