-- ==== Sys2Proof/Decode.lean ====
section
/-! DEFINITION. The frame format (30_encoding.md R36): the decoder of a frame (R40) and, after it, the
encoder of the invocation a frame stands for. Written from the table of R36 and opcode_table.json, not from
the operation's meaning (Machine/Operands.lean), so that the two can be proved equal. -/

namespace Sys2Proof

/-- Why a byte string is no frame. There is one frame length, 2 bytes (R6, R41), and no 2-byte frame is
reserved or illegal (R39), so the length is the only reason. -/
inductive DecodeError where
  /-- Fewer than two bytes. Safe: nothing is decoded. -/
  | tooShort
  /-- More than two bytes. Safe: nothing is decoded. -/
  | tooLong
  deriving DecidableEq, Repr

/-- Decoding a frame (R40): `ab = b0[7]`, `buf = b0[6]`, `ga = b0[5]`, `shdn = b0[4]`,
`v12 = b0[3:0] ++ b1`. The invocation answered is the legal one (R39) of that frame whose value is below
4096 (log entry 13: DEDUCED, unsafe). -/
def decode : List Byte → Except DecodeError Instr
  | [] => .error .tooShort
  | [_] => .error .tooShort
  | [b0, b1] =>
    .ok (.encode true (b0.getLsbD 7) (b0.getLsbD 6) (b0.getLsbD 5) (b0.getLsbD 4)
      (b0.extractLsb 3 0 ++ b1).toNat Config.frameLen)
  | _ :: _ :: _ :: _ => .error .tooLong

/-- Byte 0, then byte 1, of a frame's 16-bit word: `word[15:8]` and `word[7:0]` (R24). -/
def frameBytes (w : FrameWord) : List Byte := [w.extractLsb 15 8, w.extractLsb 7 0]

/-- One flag of the table's pattern at its word bit (R36: bits 15, 14, 13, 12). -/
def flagAt (bit : Nat) (flag : Bool) : FrameWord := (if flag then 1#16 else 0#16) <<< bit

/-- The pattern `abgs vvvv vvvv vvvv` of an invocation (R36, opcode_table.json). -/
def frameWord : Instr → FrameWord
  | .encode _ ab buf ga shdn value _ =>
    flagAt 15 ab ||| flagAt 14 buf ||| flagAt 13 ga ||| flagAt 12 shdn |||
      BitVec.ofNat 16 (value % 2 ^ Config.valueBits)

/-- The two bytes of the frame that stands for an invocation: of a framed invocation (`Instr.framed`) they
carry every operand; of another legal one, its value modulo 4096 (R37). -/
def encode (i : Instr) : List Byte := frameBytes (frameWord i)

/-- The invocation the decoder reads from a row's word, bits numbered as opcode_table.json numbers them:
bit 15 of the word is `b0[7]`. The bits above `nbits` are 0, and an instruction longer than a frame is none. -/
def decodeTableWord (nbits w : Nat) : Option Instr :=
  if nbits ≤ 8 * Config.frameLen then
    match decode (frameBytes (BitVec.ofNat 16 (w % 2 ^ nbits))) with
    | .ok i => some i
    | .error _ => none
  else none

end Sys2Proof
end

