-- ==== Sys2Proof/Machine/Operands.lean ====
section
/-! DEFINITION. Operand assembly (30_encoding.md R37, R38): the value field, the flag nibble and the two
bytes, as the pseudocode of 40_encode.md R43 puts them together. -/

namespace Sys2Proof.Machine

/-- `v12 <- value[11:0]`: the low 12 bits of the `value` port, higher bits discarded (R37, R43). -/
def valueField (value : Nat) : Code := BitVec.ofNat 12 value

/-- `flags = ab ++ buf ++ ga ++ shdn`, each flag's bit copied as given (R38), `true` as 1 (log entry 4:
DESIGN CHOICE, unsafe). -/
def flagNibble (ab buf ga shdn : Bool) : BitVec 4 :=
  BitVec.ofBool ab ++ BitVec.ofBool buf ++ BitVec.ofBool ga ++ BitVec.ofBool shdn

/-- `b0 <- flags ++ v12[11:8]` (R38, R43). -/
def frameByte0 (ab buf ga shdn : Bool) (value : Nat) : Byte :=
  flagNibble ab buf ga shdn ++ (valueField value).extractLsb 11 8

/-- `b1 <- v12[7:0]` (R37, R43). -/
def frameByte1 (value : Nat) : Byte := (valueField value).extractLsb 7 0

end Sys2Proof.Machine
end

