-- ==== Sys2Proof/Machine/State.lean ====
section
/-! DEFINITION. The state of the encoder and of the caller's side of its ports, as plain data; the reasons a
step can stop; the state before the first invocation. -/

namespace Sys2Proof.Machine

/-- The seven input ports, sampled together at the start of one operation (10_state.md R15, 70 R65). -/
structure Ports where
  /-- `cfg_valid`: a Configuration is supplied. -/
  cfgValid : Bool
  /-- `ab`: the channel-select (A/B) flag. -/
  ab : Bool
  /-- `buf`: the input-buffer-enable flag. -/
  buf : Bool
  /-- `ga`: the gain-select flag. -/
  ga : Bool
  /-- `shdn`: the shutdown-control flag. -/
  shdn : Bool
  /-- `value`: the value to encode, unsigned, below `2^VW` (R8, R10). -/
  value : Nat
  /-- `out_len`: the size in bytes of the output buffer offered (R9; log entry 3: DEDUCED, safe). -/
  outLen : Nat
  deriving DecidableEq, Repr

/-- The output ports, driven at the end of one operation (10_state.md R18). -/
structure Outputs where
  /-- `status`: 0 success, 1 parameter error (R18, 92 D4). -/
  status : Bit
  /-- `b0`: byte 0 of the wire command. -/
  b0 : Byte
  /-- `b1`: byte 1 of the wire command. -/
  b1 : Byte
  deriving DecidableEq, Repr

/-- The caller's bytes, as (address, byte) pairs. Canonical form (`Memory.wf`): addresses strictly rising.
An unlisted address has no value (log entry 7: DESIGN CHOICE, safe), so every written byte is listed. -/
abbrev Memory := List Host.Cell

/-- One invocation the caller is going to make: the model's own rendering of a line of a program
(95_test_vectors.md section 3; log entry 5: DESIGN CHOICE, safe). -/
structure Call where
  /-- What the caller drives onto the input ports. -/
  ports : Ports
  /-- Where in the caller's memory the buffer it offers begins (log entry 6: DESIGN CHOICE, safe). -/
  bufBase : Nat
  /-- The caller holds the inputs unchanged for the duration of the invocation (R65). -/
  held : Bool
  deriving DecidableEq, Repr

/-- The names of the two causes of a parameter error (60_exceptions.md R51), for the reader: a cause is not
an output (R11, R53). -/
inductive ParamCause where
  /-- `CfgAbsent`: `cfg_valid = 0`. -/
  | cfgAbsent
  /-- `BadLength`: `out_len ≠ 2`. -/
  | badLength
  deriving DecidableEq, Repr

/-- Reasons for a fault. The spec has no trap (60 R57): the parameter error is a next state. -/
inductive Fault where
  /-- Raised by `memWrite` on an index outside the buffer offered, which is the encoder's whole address
  space (20_memory.md R22, R29). Safe; no ENCODE reaches it (log entry 14: DESIGN CHOICE, safe). -/
  | outsideBuffer (index outLen : Nat)
  deriving DecidableEq, Repr

/-- Reasons for a refusal. -/
inductive Refusal where
  /-- For an arm of `exec` that has no meaning yet; no arm uses it. Safe. -/
  | notModelled (mnemonic : String)
  /-- Raised by `step`, with or without an invocation, when the configuration has `VW < 12` (R8: "refused by the
  model"). Safe. -/
  | portTooNarrow (vw : Nat)
  /-- Raised by `step` when the caller's number cannot be carried by the VW-bit `value` port, so that there
  is no such invocation (R15; as 93 A11 does for a flag; log entry 2: DEDUCED, safe). Safe. -/
  | valueTooWide (vw value : Nat)
  /-- Raised by `step` when an input changes during the invocation (R65: "the model admits no such
  invocation (refused)"; 93 A6; log entry 12: DEDUCED, safe). Safe. -/
  | inputChanged
  deriving DecidableEq, Repr

/-- Everything the spec gives the machine: the input ports, the output ports, the caller's buffers and the
parameter VW; and, outside the block, the offered buffer's place, the caller's invocations still to come
and the number of free values drawn. -/
structure State where
  /-- `VW`, the width in bits of the `value` port: a parameter, which no step changes (R8; log entry 1:
  DEDUCED, safe). -/
  vw : Nat
  /-- The input ports as last sampled (R15). -/
  ports : Ports
  /-- Where the buffer offered begins in the caller's memory (log entry 6: DESIGN CHOICE, safe). -/
  bufBase : Nat
  /-- The output ports at the end of the last step, which no step reads (R18; log entry 20: DESIGN CHOICE,
  unsafe). -/
  out : Outputs
  /-- The caller's buffers (R22). -/
  mem : Memory
  /-- The caller's invocations still to come, oldest first (log entry 5: DESIGN CHOICE, safe). -/
  calls : List Call
  /-- How many free values have been drawn (log entry 8: DESIGN CHOICE, safe). -/
  draws : Nat
  deriving DecidableEq, Repr

/-- Input ports that carry nothing: all 0 (log entry 11: DESIGN CHOICE, unsafe). -/
def Ports.zero : Ports :=
  { cfgValid := false, ab := false, buf := false, ga := false, shdn := false, value := 0, outLen := 0 }

/-- Output ports outside an invocation: they carry no meaning, any value (70 R63, 93 A7). The free values are
those numbered from `d`. -/
def Outputs.free (d : Nat) : Outputs :=
  { status := Config.freeBit d, b0 := Config.freeByte (d + 1), b1 := Config.freeByte (d + 2) }

/-- The machine before the first invocation: no invocation presented, no buffer written, VW at the spec's
default (R8), the output ports without meaning (R63; log entry 10: DEDUCED, safe). The block has no reset input (R62). -/
def State.reset : State :=
  { vw := Config.defaultValueWidth, ports := Ports.zero, bufBase := 0, out := Outputs.free 0,
    mem := [], calls := [], draws := 3 }

end Sys2Proof.Machine
end

