-- ==== Sys2Proof/Machine/Flags.lean ====
section
/-! DEFINITION. The one flag-like output, `status` (10_state.md R18, R19), and the condition that decides it
(60_exceptions.md R51). -/

namespace Sys2Proof.Machine

/-- `status` on success; the code 0 is the spec's decision D4 (R18; log entry 4: DESIGN CHOICE, unsafe). -/
def statusOk : Bit := 0#1

/-- `status` on a parameter error; the code 1 is the spec's decision D4 (R18, R51; log entry 4:
DESIGN CHOICE, unsafe). -/
def statusParamError : Bit := 1#1

/-- The cause of the parameter error of an invocation, if it has one: the two tests of R43's pseudocode, in
its order (R51; the order is not observable, R55). -/
def paramCause (cfgValid : Bool) (outLen : Nat) : Option ParamCause :=
  if cfgValid = false then some .cfgAbsent
  else if outLen ≠ Config.frameLen then some .badLength
  else none

end Sys2Proof.Machine
end

