-- ==== Sys2Proof/Machine/Ops.lean ====
section
/-! DEFINITION. The operations every meaning is written in: reading and writing a byte of the caller's memory,
MemWrite (00_scope.md R11), the end of a successful operation, raising the parameter error, sampling the input
ports, and the step without an invocation. -/

namespace Sys2Proof.Machine

/-- What a step or a meaning answers. -/
abbrev Result := Host.Outcome State Fault Refusal

/-- The canonical form of the caller's memory: addresses strictly rising. -/
abbrev Memory.wf (m : Memory) : Prop := m.Pairwise (fun x y => x.1 < y.1)

/-- The byte at an address, if something has written it. The encoder performs no read (R11, R22): this is how
the caller, and a statement, looks at a buffer. -/
def Memory.read : Memory → Nat → Option Byte
  | [], _ => none
  | (k, b) :: m, a => if k = a then some b else Memory.read m a

/-- The memory with one byte written, in canonical form. -/
def Memory.write : Memory → Nat → Byte → Memory
  | [], a, v => [(a, v)]
  | (k, b) :: m, a, v =>
    if a < k then (a, v) :: (k, b) :: m
    else if a = k then (a, v) :: m
    else (k, b) :: Memory.write m a v

/-- `n` bytes from `base` on, each holding a free value of its own, numbered from `d` (R54). -/
def Memory.drawBytes (m : Memory) (base d : Nat) : Nat → Memory
  | 0 => m
  | n + 1 => (Memory.drawBytes m base d n).write (base + n) (Config.freeByte (d + n))

/-- The address, in the caller's memory, of an index of the buffer offered (R22; log entry 6: DESIGN CHOICE, safe). -/
def bufAddr (s : State) (index : Nat) : Nat := s.bufBase + index

/-- How many indices of a buffer of `outLen` bytes the encoder could reach: those `i` with `i < 2` and
`i < out_len` (R54). -/
def reachable (outLen : Nat) : Nat := min outLen Config.frameLen

/-- One operation after another: a fault or a refusal ends it. -/
def andThen (r : Result) (k : State → Result) : Result :=
  match r with
  | .next s => k s
  | .fault f => .fault f
  | .refused f => .refused f

/-- `MemWrite(index, 1, v)` (R11, R22): the byte `v` at an index of the offered buffer of `outLen` bytes. An
index outside it does not exist (R22, R29). -/
def memWrite (outLen index : Nat) (v : Byte) (s : State) : Result :=
  if index < outLen then .next { s with mem := s.mem.write (bufAddr s index) v }
  else .fault (.outsideBuffer index outLen)

/-- `ok(b0, b1)`: `status <- 0` and the frame bytes on the output ports (R11, R18). -/
def finishOk (b0 b1 : Byte) (s : State) : State :=
  { s with out := { status := statusOk, b0 := b0, b1 := b1 } }

/-- `raise ParamError(cause)` (R11): the one exception, a returned status and not a trap (60 R57), so nothing is
saved and control does not move. `status <- 1`, `b0` and `b1` are `any8` (R53), every index of the buffer the
encoder could reach holds `any8`, every other byte is unchanged (R54). The cause is no output (R53), so it is not
used (log entry 15: DEDUCED, safe). -/
def raiseParamError (_cause : ParamCause) (outLen : Nat) (s : State) : State :=
  { s with
    out := { status := statusParamError, b0 := Config.freeByte s.draws, b1 := Config.freeByte (s.draws + 1) }
    mem := s.mem.drawBytes s.bufBase (s.draws + 2) (reachable outLen)
    draws := s.draws + 4 }

/-- The step without an invocation: the output ports carry no meaning and hold any value (R63, 93 A7; log entry
9: DEDUCED, safe), and nothing else changes. -/
def idle (s : State) : State := { s with out := Outputs.free s.draws, draws := s.draws + 3 }

/-- What the ports present, as an invocation (R35). -/
def Ports.instr (p : Ports) : Instr :=
  .encode p.cfgValid p.ab p.buf p.ga p.shdn p.value p.outLen

/-- The ports that present an invocation. -/
def Ports.ofInstr : Instr → Ports
  | .encode cfgValid ab buf ga shdn value outLen =>
    { cfgValid := cfgValid, ab := ab, buf := buf, ga := ga, shdn := shdn, value := value, outLen := outLen }

/-- Why the model does not admit a configuration, if it does not: its `value` port is too narrow (R8: "A
configuration with `VW < 12` is refused by the model"). -/
def configRefusal (vw : Nat) : Option Refusal :=
  if widthAllowed vw = false then some (.portTooNarrow vw) else none

/-- Why the model does not admit an invocation, if it does not: the number cannot be on the port (R15), or an input
changes during the invocation (R65). -/
def callRefusal (vw : Nat) (c : Call) : Option Refusal :=
  if c.ports.instr.fitsPort vw = false then some (.valueTooWide vw c.ports.value)
  else if c.held = false then some .inputChanged
  else none

/-- Sampling: all input ports take the caller's values together, as one value (R65), with the buffer offered;
the invocations after it stay to come. -/
def sample (c : Call) (rest : List Call) (s : State) : State :=
  { s with ports := c.ports, bufBase := c.bufBase, calls := rest }

/-- The 16-bit word view of the frame on the output ports, `b0 ++ b1` (20_memory.md R24). -/
def Outputs.word (o : Outputs) : FrameWord := o.b0 ++ o.b1

/-- The frame in transmission order: byte 0 is handed to the transport first (20_memory.md R25, 92 D8;
log entry 18: DESIGN CHOICE, unsafe). -/
def Outputs.wireBytes (o : Outputs) : List Byte := [o.b0, o.b1]

end Sys2Proof.Machine
end

