-- ==== Sys2Proof/Machine/Encode.lean ====
section
/-! DEFINITION. The meaning of ENCODE (40_encode.md R43). -/

namespace Sys2Proof.Machine

/-- ENCODE (R43): the parameter error on a missing Configuration or a length other than 2, detected before any
output (R52); otherwise the two bytes to the buffer, index 0 then index 1, and to the output ports. With
`cfg_valid = 0` the flags are not read (R15). -/
def execEncode (cfgValid ab buf ga shdn : Bool) (value outLen : Nat) (s : State) : Result :=
  match paramCause cfgValid outLen with
  | some cause => .next (raiseParamError cause outLen s)
  | none =>
    andThen (memWrite outLen 0 (frameByte0 ab buf ga shdn value) s) fun s1 =>
      andThen (memWrite outLen 1 (frameByte1 value) s1) fun s2 =>
        .next (finishOk (frameByte0 ab buf ga shdn value) (frameByte1 value) s2)

end Sys2Proof.Machine
end

