-- ==== Sys2Proof/Machine/Dispatch.lean ====
section
/-! DEFINITION. One arm per constructor of Instr. -/

namespace Sys2Proof.Machine

def exec (i : Instr) (s : State) : Host.Outcome State Fault Refusal :=
  match i with
  | .encode cfgValid ab buf ga shdn value outLen => Sys2Proof.Machine.execEncode cfgValid ab buf ga shdn value outLen s

end Sys2Proof.Machine
end

