-- ==== Sys2Proof/Machine/Step.lean ====
section
/-! DEFINITION. One step: one invocation of the caller, sampled and run (70_reset_and_hazards.md R65, R67). -/

namespace Sys2Proof.Machine

/-- One step. A configuration R8 does not admit is refused, with or without an invocation. The
caller's next invocation is sampled onto the ports and what the ports present is run; an invocation the model does not admit is refused; without one the step is idle. No other agent acts
(log entry 16: DESIGN CHOICE, unsafe), and an invocation is one step (log entry 17: DEDUCED, safe). -/
def step (s : State) : Host.Outcome State Fault Refusal :=
  match configRefusal s.vw with
  | some r => .refused r
  | none =>
    match s.calls with
    | [] => .next (idle s)
    | c :: rest =>
      match callRefusal s.vw c with
      | some r => .refused r
      | none => exec (sample c rest s).ports.instr (sample c rest s)

/-- `s` with the invocation a row's word stands for as the caller's next one, in place of the one that was next
(log entry 5: DESIGN CHOICE, safe: this stands for the load of a program from outside). The buffer offered stays where it was. -/
def State.withFetchWord (s : State) (nbits w : Nat) : State :=
  match decodeTableWord nbits w with
  | some i => { s with calls := { ports := Ports.ofInstr i, bufBase := s.bufBase, held := true } :: s.calls.tail }
  | none => s

end Sys2Proof.Machine
end

