-- ==== Sys2Proof/Machine/Asm.lean ====
section
/-! DEFINITION. The textual form of an invocation and of a result (30_encoding.md R42, 92_eei_decisions.md D13):
a parser and a printer over lists of characters. It has no part in a step (log entry 19: DESIGN CHOICE, safe). -/

namespace Sys2Proof.Machine

/-- The character of a digit, upper case as the spec writes hexadecimal digits. -/
def digitChar : Nat → Char
  | 0 => '0' | 1 => '1' | 2 => '2' | 3 => '3' | 4 => '4' | 5 => '5' | 6 => '6' | 7 => '7'
  | 8 => '8' | 9 => '9' | 10 => 'A' | 11 => 'B' | 12 => 'C' | 13 => 'D' | 14 => 'E' | _ => 'F'

/-- The value of a digit, hexadecimal ones in either case. -/
def digitValue (c : Char) : Option Nat :=
  let n := c.toNat
  if 48 ≤ n ∧ n ≤ 57 then some (n - 48)
  else if 65 ≤ n ∧ n ≤ 70 then some (n - 55)
  else if 97 ≤ n ∧ n ≤ 102 then some (n - 87)
  else none

/-- The value of a digit of the given base. -/
def baseDigit (base : Nat) (c : Char) : Option Nat := (digitValue c).filter (· < base)

/-- The digits at the front of a text added to a number read so far, and the text after them. -/
def takeDigits (base acc : Nat) : List Char → Nat × List Char
  | [] => (acc, [])
  | c :: cs =>
    match baseDigit base c with
    | some d => takeDigits base (base * acc + d) cs
    | none => (acc, c :: cs)

/-- A literal of at least one digit of the base, and the text after it. -/
def readNumber (base : Nat) : List Char → Option (Nat × List Char)
  | [] => none
  | c :: cs => (baseDigit base c).map fun d => takeDigits base d cs

/-- A number in a base with no leading zero; `fuel` is any number above it. -/
def numberText (base : Nat) : (fuel n : Nat) → List Char
  | 0, _ => []
  | fuel + 1, n =>
    if n < base then [digitChar n] else numberText base fuel (n / base) ++ [digitChar (n % base)]

/-- The text after a fixed beginning, if the text begins so. -/
def expectText : List Char → List Char → Option (List Char)
  | [], t => some t
  | _ :: _, [] => none
  | c :: cs, d :: t => if c = d then expectText cs t else none

/-- A flag of `<flags>`: a binary digit, 1 for `true` (R10, R42). -/
def flagDigit (c : Char) : Option Bool :=
  if c = '0' then some false else if c = '1' then some true else none

/-- `<flags>`, four binary digits in the order `ab buf ga shdn`, or `-` for an absent Configuration (R42). -/
def readFlags : List Char → Option (Option (Bool × Bool × Bool × Bool) × List Char)
  | '-' :: t => some (none, t)
  | a :: b :: g :: d :: t => do
    let ab ← flagDigit a
    let buf ← flagDigit b
    let ga ← flagDigit g
    let shdn ← flagDigit d
    some (some (ab, buf, ga, shdn), t)
  | _ => none

/-- The invocation written with these flags, value and length. The text of an absent Configuration gives no
flags; they are not read (R15), and the model writes 0 for them. -/
def invocationOf (flags : Option (Bool × Bool × Bool × Bool)) (value outLen : Nat) : Instr :=
  match flags with
  | some (ab, buf, ga, shdn) => .encode true ab buf ga shdn value outLen
  | none => .encode false false false false false value outLen

/-- Reading `ENCODE <flags>, <value>, <len>` or `ENCODE -, <value>, <len>`, the value a hexadecimal literal of at
most `vw` bits, the length decimal (R42). -/
def parseInvocation (vw : Nat) (text : List Char) : Option Instr := do
  let t1 ← expectText ['E', 'N', 'C', 'O', 'D', 'E', ' '] text
  let (flags, t2) ← readFlags t1
  let t3 ← expectText [',', ' ', '0', 'x'] t2
  let (value, t4) ← readNumber 16 t3
  let t5 ← expectText [',', ' '] t4
  let (outLen, t6) ← readNumber 10 t5
  if t6 = [] ∧ value < 2 ^ vw then some (invocationOf flags value outLen) else none

/-- The character of a flag (R42). -/
def flagChar (flag : Bool) : Char := if flag then '1' else '0'

/-- Writing an invocation (R42). -/
def printInvocation : Instr → List Char
  | .encode cfgValid ab buf ga shdn value outLen =>
    ['E', 'N', 'C', 'O', 'D', 'E', ' '] ++
      (if cfgValid then [flagChar ab, flagChar buf, flagChar ga, flagChar shdn] else ['-']) ++
      [',', ' ', '0', 'x'] ++ numberText 16 (value + 1) value ++
      [',', ' '] ++ numberText 10 (outLen + 1) outLen

/-- What the text of an invocation says of it: everything, but for the flags of an absent Configuration. -/
def asWritten : Instr → Instr
  | .encode cfgValid ab buf ga shdn value outLen =>
    invocationOf (if cfgValid then some (ab, buf, ga, shdn) else none) value outLen

/-- A byte as two hexadecimal digits. -/
def byteText (b : Byte) : List Char := [digitChar (b.toNat / 16), digitChar (b.toNat % 16)]

/-- Writing a result: `-> ok b0=0x.. b1=0x..` or `-> PARAM_ERROR` (R42). -/
def printResult (o : Outputs) : List Char :=
  if o.status = statusOk then
    ['-', '>', ' ', 'o', 'k', ' ', 'b', '0', '=', '0', 'x'] ++ byteText o.b0 ++
      [' ', 'b', '1', '=', '0', 'x'] ++ byteText o.b1
  else ['-', '>', ' ', 'P', 'A', 'R', 'A', 'M', '_', 'E', 'R', 'R', 'O', 'R']

end Sys2Proof.Machine
end

