-- ==== Sys2Proof/Safety.lean ====
section
/-! DEFINITION. What counts as a good state and a safe run: the invariant every step keeps, and the condition on
the caller's side under which no step stops. -/

namespace Sys2Proof.Machine

/-- The invariant of the machine: the caller's memory is in canonical form, the configuration is one the spec
admits (R8), and the `value` port carries a number below `2^VW` (R15). -/
structure Inv (s : State) : Prop where
  /-- Addresses strictly rising. -/
  memCanonical : s.mem.wf
  /-- `VW ≥ 12` (R8). -/
  widthIsAllowed : widthAllowed s.vw = true
  /-- The number on the `value` port fits it (R15). -/
  valueOnPort : s.ports.instr.fitsPort s.vw = true

/-- The caller does what R65 asks for one invocation, with a number its `value` port can carry (R15). The
invocation may be legal or illegal (R39). -/
def Call.ready (vw : Nat) (c : Call) : Bool := c.held && c.ports.instr.fitsPort vw

/-- The configuration is one the spec admits (R8) and every invocation still to come is ready. -/
structure Ready (s : State) : Prop where
  /-- `VW ≥ 12` (R8). -/
  widthIsAllowed : widthAllowed s.vw = true
  /-- Every invocation to come is held and fits the port. -/
  callsReady : ∀ c ∈ s.calls, c.ready s.vw = true

/-- `k` steps from `s` run without a fault or a refusal. -/
def RunsSafely (k : Nat) (s : State) : Prop := ∃ t : State, Sys2Proof.core.run k s = .next t

end Sys2Proof.Machine
end

