-- ==== Sys2Proof/Certificates/Slice0/Obligations.lean ====
section
/-! DEFINITION. The statements for the provers, from the numbered rules of spec/. Where a statement speaks of the
status codes, they are the spec's decision D4 (92_eei_decisions.md), by their names `statusOk` and
`statusParamError`; free values stand for `any8`, and no statement rests on what they are. -/

open Sys2Proof Sys2Proof.Machine

/-! ### The operation -/

/-- R43, its form "as a total function for a model". On a legal invocation ENCODE completes with status success,
the two bytes the formula gives, and the same bytes at indices 0 and 1 of the buffer offered; on every other
invocation, whatever the flags and the value, it completes with the parameter error. No hypothesis on the state. -/
def Obligations.EncodeComputesTheArithmeticFrame : Prop :=
  ∀ (cfgValid ab buf ga shdn : Bool) (value outLen : Nat) (s : State),
    (cfgValid = true ∧ outLen = 2 →
      ∃ t, exec (.encode cfgValid ab buf ga shdn value outLen) s = .next t ∧ t.out.status = statusOk ∧
        t.out.b0.toNat =
          16 * (8 * ab.toNat + 4 * buf.toNat + 2 * ga.toNat + shdn.toNat) + value % 4096 / 256 ∧
        t.out.b1.toNat = value % 256 ∧
        t.mem.read (bufAddr s 0) = some t.out.b0 ∧ t.mem.read (bufAddr s 1) = some t.out.b1) ∧
    (¬(cfgValid = true ∧ outLen = 2) →
      ∃ t, exec (.encode cfgValid ab buf ga shdn value outLen) s = .next t ∧
        t.out.status = statusParamError)

/-- R49. A successful ENCODE stores its two bytes at indices 0 and 1 of the buffer offered, the bytes of the output
ports, and no other byte of memory changes. There is no load: the status of an invocation, and all of the outputs of a
legal one, are the same whatever memory holds. -/
def Obligations.OnlyTheTwoFrameBytesAreStored : Prop :=
  (∀ (ab buf ga shdn : Bool) (value : Nat) (s : State),
    ∃ t, exec (.encode true ab buf ga shdn value 2) s = .next t ∧
      t.mem.read (bufAddr s 0) = some t.out.b0 ∧ t.mem.read (bufAddr s 1) = some t.out.b1 ∧
      ∀ a, a ≠ bufAddr s 0 → a ≠ bufAddr s 1 → t.mem.read a = s.mem.read a) ∧
  ∀ (i : Instr) (s : State) (m : Memory),
    ∃ t u, exec i s = .next t ∧ exec i { s with mem := m } = .next u ∧
      u.out.status = t.out.status ∧ (i.legal = true → u.out = t.out)

/-- The model's memory is not read on an error either: for every invocation, legal or not, the outputs and the
bytes the encoder could reach end the same whatever memory held. On an illegal invocation this compares free values of
two runs that draw the same numbers, which is the model's choice (log entry 8) and no rule: R47 and R53 leave those
bytes unconstrained in each invocation separately. -/
def Obligations.NoInvocationDependsOnMemory : Prop :=
  ∀ (cfgValid ab buf ga shdn : Bool) (value outLen : Nat) (s : State) (m : Memory),
    ∃ t u, exec (.encode cfgValid ab buf ga shdn value outLen) s = .next t ∧
      exec (.encode cfgValid ab buf ga shdn value outLen) { s with mem := m } = .next u ∧ u.out = t.out ∧
      ∀ k, k < min outLen 2 → u.mem.read (bufAddr s k) = t.mem.read (bufAddr s k)

/-- The frame of ENCODE, in every form, legal or not: VW, the input ports, the place of the buffer and the caller's
invocations stay as they are, and so does every byte of memory but the indices below min(out_len, 2) of the buffer
offered; and a legal one draws no free value. Derived from R13, R20, R22 and R54; the fields other than ports and
memory are the model's rendering (log entries 1, 5, 6 and 8). -/
def Obligations.EncodeChangesOnlyOutputsReachableBytesAndDraws : Prop :=
  ∀ (cfgValid ab buf ga shdn : Bool) (value outLen : Nat) (s : State),
    ∃ t, exec (.encode cfgValid ab buf ga shdn value outLen) s = .next t ∧ t.vw = s.vw ∧ t.ports = s.ports ∧
      t.bufBase = s.bufBase ∧ t.calls = s.calls ∧
      (∀ a, (∀ k, k < min outLen 2 → a ≠ bufAddr s k) → t.mem.read a = s.mem.read a) ∧
      (cfgValid = true ∧ outLen = 2 → t.draws = s.draws)

/-- The parameter error's whole effect (R53, R54; the spec's decision D5, log entry 8). Status 1, both frame bytes
free values, every index below min(out_len, 2) of the buffer a free value of its own, every other byte of memory as
before, VW, the input ports, the place of the buffer and the calls to come as before, and the numbers of the draws used
up, so that the next invocation draws others. -/
def Obligations.ParameterErrorDrawsOnlyReachableBytes : Prop :=
  ∀ (cfgValid ab buf ga shdn : Bool) (value outLen : Nat) (s : State),
    ¬(cfgValid = true ∧ outLen = 2) →
      ∃ t, exec (.encode cfgValid ab buf ga shdn value outLen) s = .next t ∧
        t.out = ⟨statusParamError, Config.freeByte s.draws, Config.freeByte (s.draws + 1)⟩ ∧
        (∀ k, k < 2 → k < outLen →
          t.mem.read (bufAddr s k) = some (Config.freeByte (s.draws + 2 + k))) ∧
        (∀ a, (∀ k, k < 2 → k < outLen → a ≠ bufAddr s k) → t.mem.read a = s.mem.read a) ∧
        t.vw = s.vw ∧ t.ports = s.ports ∧ t.bufBase = s.bufBase ∧ t.calls = s.calls ∧
        s.draws + 2 + 2 ≤ t.draws

/-- Which invocations raise the parameter error: exactly those without a Configuration or with a length other than
2, whatever the value, the flags and the state, the status before among it (R51; R19: not sticky). -/
def Obligations.StatusTellsExactlyTheTwoCauses : Prop :=
  statusOk ≠ statusParamError ∧
  ∀ (cfgValid ab buf ga shdn : Bool) (value outLen : Nat) (s : State),
    ∃ t, exec (.encode cfgValid ab buf ga shdn value outLen) s = .next t ∧
      (t.out.status = statusParamError ↔ cfgValid = false ∨ outLen ≠ 2) ∧
      (t.out.status = statusOk ↔ cfgValid = true ∧ outLen = 2)

/-- Both causes at once are one parameter error (R55, derived in the spec from R53). With both, the machine ends as
with the wrong length alone, and its outputs are those of an absent Configuration alone. That the free bytes are
equal is the model's choice (log entry 8); the rule is that status and cause tell nothing apart. -/
def Obligations.BothCausesAtOnceAreOneError : Prop :=
  ∀ (ab buf ga shdn : Bool) (value outLen : Nat) (s : State), outLen ≠ 2 →
    ∃ t u, exec (.encode false ab buf ga shdn value outLen) s = .next t ∧
      exec (.encode true ab buf ga shdn value outLen) s = .next t ∧
      exec (.encode false ab buf ga shdn value 2) s = .next u ∧ t.out = u.out

/-- Without a Configuration neither a flag nor the value is read (R15 and the corner cases of R43): the machine ends in
the same state whatever they are. That the free bytes of the two runs are equal is the model's choice (log entry 8):
R47 and R53 leave them unconstrained in each invocation separately. -/
def Obligations.AbsentConfigurationReadsNoFlag : Prop :=
  ∀ (ab buf ga shdn ab' buf' ga' shdn' : Bool) (value value' outLen : Nat) (s : State),
    ∃ t, exec (.encode false ab buf ga shdn value outLen) s = .next t ∧
      exec (.encode false ab' buf' ga' shdn' value' outLen) s = .next t

/-! ### The laws of ENCODE -/

/-- R44, the packing law. -/
def Obligations.PackingLaw : Prop :=
  ∀ (ab buf ga shdn : Bool) (value : Nat) (s : State), value < 4096 →
    ∃ t, exec (.encode true ab buf ga shdn value 2) s = .next t ∧
      t.out.b0.extractLsb 7 4 =
        BitVec.ofBool ab ++ BitVec.ofBool buf ++ BitVec.ofBool ga ++ BitVec.ofBool shdn ∧
      (t.out.b0.extractLsb 3 0 ++ t.out.b1).toNat = value

/-- R45, the truncation law, for a value of any size. The same next state: not the frame alone, but no status, flag
or other state tells that truncation occurred. -/
def Obligations.TruncationLaw : Prop :=
  ∀ (ab buf ga shdn : Bool) (value : Nat) (s : State),
    ∃ t, exec (.encode true ab buf ga shdn value 2) s = .next t ∧
      exec (.encode true ab buf ga shdn (value % 4096) 2) s = .next t

/-- R47, determinism. The outputs depend on the invocation alone: from any two states it gives equal status, and
equal frame bytes too where it is legal. -/
def Obligations.OutputsDependOnTheInvocationAlone : Prop :=
  ∀ (i : Instr) (s s' : State), ∃ t t', exec i s = .next t ∧ exec i s' = .next t' ∧
    t.out.status = t'.out.status ∧ (i.legal = true → t.out = t'.out)

/-- Repeating a legal invocation on the same buffer changes nothing (R28, idempotence). -/
def Obligations.LegalEncodeIsIdempotent : Prop :=
  ∀ (i : Instr) (s : State), i.legal = true → ∃ t, exec i s = .next t ∧ exec i t = .next t

/-- R36 and R37: where every bit of the frame comes from, by byte and bit and by word bit. The value's bits 12 and
above are in none of them. -/
def Obligations.EveryFrameBitHasItsSource : Prop :=
  ∀ (ab buf ga shdn : Bool) (value : Nat) (s : State),
    ∃ t, exec (.encode true ab buf ga shdn value 2) s = .next t ∧
      (t.out.b0.getLsbD 7 = ab ∧ t.out.b0.getLsbD 6 = buf ∧ t.out.b0.getLsbD 5 = ga ∧
        t.out.b0.getLsbD 4 = shdn) ∧
      (∀ k, k < 4 → t.out.b0.getLsbD k = value.testBit (8 + k)) ∧
      (∀ k, k < 8 → t.out.b1.getLsbD k = value.testBit k) ∧
      (t.out.word.getLsbD 15 = ab ∧ t.out.word.getLsbD 14 = buf ∧ t.out.word.getLsbD 13 = ga ∧
        t.out.word.getLsbD 12 = shdn) ∧
      ∀ k, k < 12 → t.out.word.getLsbD k = value.testBit k

/-- Flags and value do not mix (R38, partly derived there). Changing the value alone leaves b0[7:4] as it was;
changing flags alone leaves b0[3:0] and b1 as they were. -/
def Obligations.FlagsAndValueDoNotMix : Prop :=
  ∀ (ab buf ga shdn ab' buf' ga' shdn' : Bool) (value value' : Nat) (s : State),
    ∃ t u v, exec (.encode true ab buf ga shdn value 2) s = .next t ∧
      exec (.encode true ab buf ga shdn value' 2) s = .next u ∧
      exec (.encode true ab' buf' ga' shdn' value 2) s = .next v ∧
      u.out.b0.extractLsb 7 4 = t.out.b0.extractLsb 7 4 ∧
      v.out.b0.extractLsb 3 0 = t.out.b0.extractLsb 3 0 ∧ v.out.b1 = t.out.b1

/-- A reconfiguration shows in the invocation that carries it and only in its own bit (R20; the bits of R36 and R38;
program P4 of 95_test_vectors.md): inverting one flag inverts that flag's bit of byte 0 and no other output bit. -/
def Obligations.OneFlagMovesOneOutputBit : Prop :=
  ∀ (ab buf ga shdn : Bool) (value : Nat) (s : State),
    ∃ t a b g d, exec (.encode true ab buf ga shdn value 2) s = .next t ∧
      exec (.encode true (!ab) buf ga shdn value 2) s = .next a ∧
      exec (.encode true ab (!buf) ga shdn value 2) s = .next b ∧
      exec (.encode true ab buf (!ga) shdn value 2) s = .next g ∧
      exec (.encode true ab buf ga (!shdn) value 2) s = .next d ∧
      a.out = { t.out with b0 := t.out.b0 ^^^ 0x80#8 } ∧ b.out = { t.out with b0 := t.out.b0 ^^^ 0x40#8 } ∧
      g.out = { t.out with b0 := t.out.b0 ^^^ 0x20#8 } ∧ d.out = { t.out with b0 := t.out.b0 ^^^ 0x10#8 }

/-! ### Encodings -/

/-- Words written out from the table of R36 and from vectors V2 to V6, V8, V10, V11, V16 and V17 decode to the
invocations they stand for. -/
def Obligations.VectorWordsDecode : Prop :=
  decodeTableWord 16 0x8000 = some (.encode true true false false false 0 2) ∧
  decodeTableWord 16 0x4000 = some (.encode true false true false false 0 2) ∧
  decodeTableWord 16 0x2000 = some (.encode true false false true false 0 2) ∧
  decodeTableWord 16 0x1000 = some (.encode true false false false true 0 2) ∧
  decodeTableWord 16 0xFFFF = some (.encode true true true true true 0xFFF 2) ∧
  decodeTableWord 16 0x0001 = some (.encode true false false false false 1 2) ∧
  decodeTableWord 16 0x0100 = some (.encode true false false false false 0x100 2) ∧
  decodeTableWord 16 0x0800 = some (.encode true false false false false 0x800 2) ∧
  decodeTableWord 16 0x77FF = some (.encode true false true true true 0x7FF 2) ∧
  decodeTableWord 16 0xB333 = some (.encode true true false true true 0x333 2)

/-- The decoder takes byte strings of exactly two bytes and rejects every other by name (R6, R39, R41). -/
def Obligations.DecodeTakesExactlyTwoBytes : Prop :=
  ∀ bytes : List Byte,
    (bytes.length < 2 → decode bytes = .error .tooShort) ∧
    (bytes.length = 2 → ∃ i, decode bytes = .ok i) ∧
    (2 < bytes.length → decode bytes = .error .tooLong)

/-- Decode and encode agree, both ways: every legal invocation with a value below 4096 is read back whole from its
frame, and every two bytes are the frame of the invocation decoded from them. -/
def Obligations.DecodeAndEncodeAgree : Prop :=
  (∀ i : Instr, i.framed = true → decode (encode i) = .ok i) ∧
  ∀ b0 b1 : Byte, ∃ i, decode [b0, b1] = .ok i ∧ i.framed = true ∧ encode i = [b0, b1]

/-- The frame the operation produces is the frame of the encoding table, and the receiver's decoding of it gives
back the flags and the value modulo 4096 (R40, derived there from R36). -/
def Obligations.ReceiverReadsBackTheInvocation : Prop :=
  ∀ (ab buf ga shdn : Bool) (value : Nat) (s : State),
    ∃ t, exec (.encode true ab buf ga shdn value 2) s = .next t ∧
      t.out.wireBytes = encode (.encode true ab buf ga shdn value 2) ∧
      decode t.out.wireBytes = .ok (.encode true ab buf ga shdn (value % 4096) 2)

/-- No frame is reserved (R39, derived there): from any state, each of the 65536 words is the frame of exactly one
choice of flags and 12-bit value. -/
def Obligations.EveryWordIsTheFrameOfOneInvocation : Prop :=
  ∀ (w : FrameWord) (s : State), ∃! p : Bool × Bool × Bool × Bool × Code,
    ∃ t, exec (.encode true p.1 p.2.1 p.2.2.1 p.2.2.2.1 p.2.2.2.2.toNat 2) s = .next t ∧ t.out.word = w

/-- The spec's text form of an invocation (R42, the spec's decision D13; log entry 19): reading what is written
gives the invocation back, but for the flags of an absent Configuration, which the text does not hold. -/
def Obligations.TextFormReadsBack : Prop :=
  ∀ (vw : Nat) (i : Instr), i.fitsPort vw = true → parseInvocation vw (printInvocation i) = some (asWritten i)

/-- The bytes of the frame in transmission order are the buffer's in index order (R25; the spec's decision D8). -/
def Obligations.WireOrderIsIndexOrder : Prop :=
  ∀ (ab buf ga shdn : Bool) (value : Nat) (s : State),
    ∃ t, exec (.encode true ab buf ga shdn value 2) s = .next t ∧
      t.out.wireBytes.map some = [t.mem.read (bufAddr s 0), t.mem.read (bufAddr s 1)]

/-! ### The step -/

/-- A step runs the sampled invocation: where the caller's next invocation is held and one the port can carry, the
step is `exec` of it on the state whose ports and buffer are the caller's and whose remaining calls are the rest
(the model's own form of R65 and R67; log entry 5). -/
def Obligations.StepRunsTheSampledInvocation : Prop :=
  ∀ (s : State) (c : Call) (rest : List Call), s.calls = c :: rest → c.held = true →
    c.ports.instr.wellFormed s.vw = true →
      step s = exec c.ports.instr { s with ports := c.ports, bufBase := c.bufBase, calls := rest }

/-- A step runs the decoded word: where a row's word decodes to an invocation and is placed as the next one, the
step is `exec` of it, on every configuration R8 admits (log entries 5 and 13). -/
def Obligations.StepRunsTheDecodedWord : Prop :=
  ∀ (s : State) (w : Nat) (i : Instr), 12 ≤ s.vw → decodeTableWord 16 w = some i →
    i.wellFormed s.vw = true ∧
    step (s.withFetchWord 16 w) = exec i { s with ports := Ports.ofInstr i, calls := s.calls.tail }

/-- What a step refuses: a configuration with VW below 12, with an invocation or without one (R8), else a number the
port cannot carry (R15, log entry 2), else an invocation whose inputs change (R65, log entry 12). -/
def Obligations.StepRefusesWhatTheSpecDoesNotAdmit : Prop :=
  (∀ s : State, s.vw < 12 → step s = .refused (.portTooNarrow s.vw)) ∧
  ∀ (s : State) (c : Call) (rest : List Call), s.calls = c :: rest →
    (12 ≤ s.vw → 2 ^ s.vw ≤ c.ports.value → step s = .refused (.valueTooWide s.vw c.ports.value)) ∧
    (12 ≤ s.vw → c.ports.value < 2 ^ s.vw → c.held = false → step s = .refused .inputChanged)

/-- Outside an invocation (R63; the model's choice, log entry 9) a step of an admitted configuration (R8) leaves the
buffers, the ports and VW as they are, and the output ports hold free values. -/
def Obligations.IdleStepKeepsTheBuffers : Prop :=
  ∀ s : State, 12 ≤ s.vw → s.calls = [] →
    ∃ t, step s = .next t ∧ t.out = Outputs.free s.draws ∧ t.mem = s.mem ∧ t.ports = s.ports ∧
      t.bufBase = s.bufBase ∧ t.vw = s.vw ∧ t.calls = [] ∧ s.draws + 3 ≤ t.draws

/-- No step writes outside the buffer offered (R22, R26, R54): no step from any state faults, and a step leaves every
byte beyond the first min(out_len, 2) of the buffer as it was. That a write outside the buffer would be a fault is the
model's choice (log entry 14), and no rule. -/
def Obligations.NoStepWritesOutsideTheBuffer : Prop :=
  (∀ (outLen index : Nat) (v : Byte) (s : State), outLen ≤ index →
    memWrite outLen index v s = .fault (.outsideBuffer index outLen)) ∧
  (∀ (s : State) (f : Fault), step s ≠ .fault f) ∧
  ∀ (s t : State) (c : Call) (rest : List Call), s.calls = c :: rest → step s = .next t →
    ∀ a, a < c.bufBase ∨ c.bufBase + min c.ports.outLen 2 ≤ a → t.mem.read a = s.mem.read a

/-- Every rule holds for every VW of 12 or more (R8): an invocation both ports can carry has the same effect on a
machine with another VW. That on an illegal invocation the free bytes of the two machines are equal too is the model's
choice (log entry 8), and no rule. -/
def Obligations.EffectsDoNotDependOnVW : Prop :=
  ∀ (s : State) (n : Nat) (c : Call) (rest : List Call), s.calls = c :: rest → c.held = true →
    c.ports.instr.wellFormed s.vw = true → c.ports.instr.wellFormed n = true →
      ∃ t, step s = .next t ∧ step { s with vw := n } = .next { t with vw := n }

/-! ### Invariants and runs -/

/-- The machine before the first invocation meets the invariant, with VW at the spec's default of 16 (R8, D1), no
invocation presented and no byte of a buffer written. The block has no state to reset (R62), so these are the model's
choices: the zeros on the input ports, on which `Inv` rests here, log entry 11; the empty calls, log entry 5; the
unwritten memory, log entry 7. -/
def Obligations.ResetMeetsTheInvariant : Prop :=
  Inv State.reset ∧ Ready State.reset ∧ State.reset.vw = 16 ∧ State.reset.calls = [] ∧
    ∀ a, State.reset.mem.read a = none

/-- Every step keeps the invariant: memory in canonical form, a VW the spec admits, and a number on the `value`
port below 2^VW (R8, R15); and no step changes VW. -/
def Obligations.EveryStepKeepsTheInvariant : Prop :=
  ∀ s t : State, Inv s → step s = .next t → Inv t ∧ t.vw = s.vw

/-- A caller that holds its inputs is never stopped: from a state that meets the invariant with every call ready,
legal or not, every number of steps runs without a fault or a refusal, meets the invariant again and has taken that
many calls. -/
def Obligations.ReadyCallsNeverStop : Prop :=
  ∀ (k : Nat) (s : State), Inv s → Ready s →
    RunsSafely k s ∧
    ∀ t : State, Sys2Proof.core.run k s = .next t → Inv t ∧ Ready t ∧ t.calls = s.calls.drop k

/-- The block keeps no history (R13, R14, R64): after any program of ready calls whose last is legal, the output ports
are what that last call gives as the first invocation after power-up. -/
def Obligations.LastInvocationAloneDecidesTheOutputs : Prop :=
  ∀ (s : State) (before : List Call) (c : Call), Ready s → s.calls = before ++ [c] →
    c.ports.instr.legal = true →
      ∃ t u : State, Sys2Proof.core.run (before.length + 1) s = .next t ∧
        step { State.reset with vw := s.vw, calls := [c] } = .next u ∧ t.calls = [] ∧ t.out = u.out

/-- An earlier invocation leaves no trace behind a legal one on the same buffer (R58, R19; program P2): whatever the
first call was, legal or an error, outputs and memory end as they do without it. -/
def Obligations.AnErrorLeavesNoTrace : Prop :=
  ∀ (s : State) (first c : Call), s.mem.wf → Ready { s with calls := [first, c] } →
    first.bufBase = c.bufBase → c.ports.instr.legal = true →
      ∃ t u : State, Sys2Proof.core.run 2 { s with calls := [first, c] } = .next t ∧
        step { s with calls := [c] } = .next u ∧ t.out = u.out ∧ t.mem = u.mem

/-- Two legal invocations on buffers that share no byte may change places (R30, the spec's decisions D14 and D19;
program P1): the buffers end the same, and each gives the outputs it gives alone. -/
def Obligations.InvocationsOnSeparateBuffersCommute : Prop :=
  ∀ (s : State) (c d : Call), s.mem.wf → Ready { s with calls := [c, d] } →
    c.ports.instr.legal = true → d.ports.instr.legal = true →
    (c.bufBase + 2 ≤ d.bufBase ∨ d.bufBase + 2 ≤ c.bufBase) →
      ∃ t u tc td : State, Sys2Proof.core.run 2 { s with calls := [c, d] } = .next t ∧
        Sys2Proof.core.run 2 { s with calls := [d, c] } = .next u ∧ t.mem = u.mem ∧
        step { s with calls := [c] } = .next tc ∧ step { s with calls := [d] } = .next td ∧
        u.out = tc.out ∧ t.out = td.out
end

