-- ==== Sys2Proof/Laws/Decode.lean ====
section
/-! SUPPORT. Each bit of the word the encoder lays out, said once (30_encoding.md R36). -/

namespace Sys2Proof

@[simp] theorem two_pow_valueBits : 2 ^ Config.valueBits = 4096 := rfl

theorem flagAt_getLsbD {bit : Nat} (flag : Bool) (k : Nat) (h : bit < 16) :
    (flagAt bit flag).getLsbD k = (flag && decide (k = bit)) := by
  cases flag
  · simp [flagAt]
  · rw [flagAt, if_pos rfl, BitVec.getLsbD_shiftLeft, BitVec.getLsbD_one]
    rcases Nat.lt_trichotomy k bit with hk | rfl | hk
    · simp [hk, Nat.ne_of_lt hk]
    · simp [h]
    · simp [Nat.ne_of_gt hk, show ¬k - bit = 0 by omega]

theorem frameWord_getLsbD (cfgValid ab buf ga shdn : Bool) (value outLen k : Nat) :
    (frameWord (.encode cfgValid ab buf ga shdn value outLen)).getLsbD k =
      if k < 12 then value.testBit k
      else if k = 12 then shdn else if k = 13 then ga else if k = 14 then buf else if k = 15 then ab
      else false := by
  simp only [frameWord, BitVec.getLsbD_or, BitVec.getLsbD_ofNat, Config.valueBits, Nat.testBit_mod_two_pow,
    flagAt_getLsbD _ _ (by omega : 15 < 16), flagAt_getLsbD _ _ (by omega : 14 < 16),
    flagAt_getLsbD _ _ (by omega : 13 < 16), flagAt_getLsbD _ _ (by omega : 12 < 16)]
  by_cases h : k < 12
  · simp [h, show k < 16 by omega, show k ≠ 15 by omega, show k ≠ 14 by omega, show k ≠ 13 by omega,
      show k ≠ 12 by omega]
  · rw [if_neg h]
    split_ifs <;> simp_all

end Sys2Proof
end

