-- ==== Sys2Proof/Laws/Memory.lean ====
section
/-! SUPPORT. The laws of the caller's memory: what a write does to every read, that every operation keeps the
canonical form, and how two writes go together. -/

namespace Sys2Proof.Machine

@[simp] theorem read_write_same (m : Memory) (a : Nat) (v : Byte) : (m.write a v).read a = some v := by
  induction m with
  | nil => simp [Memory.write, Memory.read]
  | cons x m ih =>
    obtain ⟨k, b⟩ := x
    rcases Nat.lt_trichotomy a k with h | h | h
    · simp [Memory.write, Memory.read, h]
    · simp [Memory.write, Memory.read, h]
    · simp [Memory.write, Memory.read, Nat.lt_asymm h, Nat.ne_of_gt h, Nat.ne_of_lt h, ih]

theorem read_write_other (m : Memory) {a k : Nat} (v : Byte) (h : k ≠ a) :
    (m.write a v).read k = m.read k := by
  induction m with
  | nil => simp [Memory.write, Memory.read, h.symm]
  | cons x m ih =>
    obtain ⟨l, b⟩ := x
    rcases Nat.lt_trichotomy a l with hl | hl | hl
    · simp [Memory.write, Memory.read, hl, h.symm]
    · simp [Memory.write, Memory.read, hl, show l ≠ k from fun e => h (by omega)]
    · simp [Memory.write, Memory.read, Nat.lt_asymm hl, Nat.ne_of_gt hl, ih]

/-- A key of the memory after a write is the address written or a key it had. -/
theorem mem_write {m : Memory} {a : Nat} {v : Byte} {x : Host.Cell} (h : x ∈ m.write a v) :
    x.1 = a ∨ x ∈ m := by
  induction m with
  | nil => simp [Memory.write] at h; simp [h]
  | cons y m ih =>
    obtain ⟨k, b⟩ := y
    simp only [Memory.write] at h
    split_ifs at h with h1 h2
    · rcases List.mem_cons.1 h with rfl | h
      · exact .inl rfl
      · exact .inr h
    · rcases List.mem_cons.1 h with rfl | h
      · exact .inl rfl
      · exact .inr (List.mem_cons_of_mem _ h)
    · rcases List.mem_cons.1 h with rfl | h
      · exact .inr List.mem_cons_self
      · exact (ih h).imp_right (List.mem_cons_of_mem _)

theorem write_wf {m : Memory} (a : Nat) (v : Byte) (h : m.wf) : (m.write a v).wf := by
  induction m with
  | nil => simp [Memory.write]
  | cons x m ih =>
    obtain ⟨k, b⟩ := x
    obtain ⟨hk, hm⟩ := List.pairwise_cons.1 h
    simp only [Memory.write]
    split_ifs with h1 h2
    · refine List.pairwise_cons.2 ⟨fun y hy => ?_, h⟩
      rcases List.mem_cons.1 hy with rfl | hy
      · exact h1
      · exact Nat.lt_trans h1 (hk y hy)
    · exact List.pairwise_cons.2 ⟨fun y hy => h2 ▸ hk y hy, hm⟩
    · refine List.pairwise_cons.2 ⟨fun y hy => ?_, ih hm⟩
      rcases mem_write hy with e | hy
      · show k < y.1
        omega
      · exact hk y hy

theorem drawBytes_wf {m : Memory} (base d n : Nat) (h : m.wf) : (m.drawBytes base d n).wf := by
  induction n with
  | zero => exact h
  | succ n ih => exact write_wf _ _ ih

/-- Everything drawn bytes do to a read: the `n` bytes from `base` on hold the free values numbered from `d`,
every other byte is as before. -/
theorem read_drawBytes (m : Memory) (base d n a : Nat) :
    (m.drawBytes base d n).read a =
      if base ≤ a ∧ a < base + n then some (Config.freeByte (d + (a - base))) else m.read a := by
  induction n with
  | zero => simp [Memory.drawBytes, show ¬(base ≤ a ∧ a < base) by omega]
  | succ n ih =>
    simp only [Memory.drawBytes]
    rcases eq_or_ne a (base + n) with rfl | h
    · simp
    · rw [read_write_other _ _ h, ih]
      exact if_congr (by omega) rfl rfl

theorem write_write_same (m : Memory) (a : Nat) (v w : Byte) : (m.write a v).write a w = m.write a w := by
  induction m with
  | nil => simp [Memory.write]
  | cons x m ih =>
    obtain ⟨k, b⟩ := x
    rcases Nat.lt_trichotomy a k with h | h | h
    · simp [Memory.write, h]
    · simp [Memory.write, h]
    · simp [Memory.write, Nat.lt_asymm h, Nat.ne_of_gt h, ih]

/-- Two memories in canonical form in which every address reads the same are the same list. -/
theorem memory_ext {m n : Memory} (hm : m.wf) (hn : n.wf) (h : ∀ a, m.read a = n.read a) : m = n := by
  have absent : ∀ {l : Memory} {k : Nat}, (∀ y ∈ l, k < y.1) → l.read k = none := by
    intro l k hl
    induction l with
    | nil => rfl
    | cons y l ih =>
      have hy := hl y List.mem_cons_self
      simp [Memory.read, Nat.ne_of_gt hy, ih fun z hz => hl z (List.mem_cons_of_mem _ hz)]
  induction m generalizing n with
  | nil =>
    cases n with
    | nil => rfl
    | cons y n => simpa [Memory.read] using h y.1
  | cons x m ih =>
    cases n with
    | nil => simpa [Memory.read] using h x.1
    | cons y n =>
      obtain ⟨k, b⟩ := x
      obtain ⟨l, e⟩ := y
      obtain ⟨hx, hm'⟩ := List.pairwise_cons.1 hm
      obtain ⟨hy, hn'⟩ := List.pairwise_cons.1 hn
      have hkl : k = l := by
        rcases Nat.lt_trichotomy k l with hkl | hkl | hkl
        · have := h k
          simp [Memory.read, Nat.ne_of_gt hkl, absent fun z hz => Nat.lt_trans hkl (hy z hz)] at this
        · exact hkl
        · have := h l
          simp [Memory.read, Nat.ne_of_gt hkl, absent fun z hz => Nat.lt_trans hkl (hx z hz)] at this
      subst hkl
      have hbe : b = e := by simpa [Memory.read] using h k
      subst hbe
      rw [ih hm' hn' fun a => ?_]
      rcases eq_or_ne k a with rfl | ha
      · rw [absent hx, absent hy]
      · simpa [Memory.read, ha] using h a

/-- Writes to two addresses may change places. -/
theorem write_comm {m : Memory} {a c : Nat} (v w : Byte) (hm : m.wf) (h : a ≠ c) :
    (m.write a v).write c w = (m.write c w).write a v := by
  refine memory_ext (write_wf _ _ (write_wf _ _ hm)) (write_wf _ _ (write_wf _ _ hm)) fun k => ?_
  rcases eq_or_ne k a with rfl | ha
  · simp [read_write_other _ _ h]
  · rcases eq_or_ne k c with rfl | hc
    · simp [read_write_other _ _ ha]
    · simp [read_write_other, ha, hc]

end Sys2Proof.Machine
end

