-- ==== Sys2Proof/Laws/State.lean ====
section
/-! SUPPORT. One lemma per field of State for each operation that updates it, true by unfolding once. -/

namespace Sys2Proof.Machine

variable (s : State) (b0 b1 : Byte) (cause : ParamCause) (outLen : Nat) (c : Call) (rest : List Call)

@[simp] theorem finishOk_vw : (finishOk b0 b1 s).vw = s.vw := rfl
@[simp] theorem finishOk_ports : (finishOk b0 b1 s).ports = s.ports := rfl
@[simp] theorem finishOk_bufBase : (finishOk b0 b1 s).bufBase = s.bufBase := rfl
@[simp] theorem finishOk_out : (finishOk b0 b1 s).out = ⟨statusOk, b0, b1⟩ := rfl
@[simp] theorem finishOk_mem : (finishOk b0 b1 s).mem = s.mem := rfl
@[simp] theorem finishOk_calls : (finishOk b0 b1 s).calls = s.calls := rfl
@[simp] theorem finishOk_draws : (finishOk b0 b1 s).draws = s.draws := rfl

@[simp] theorem raiseParamError_vw : (raiseParamError cause outLen s).vw = s.vw := rfl
@[simp] theorem raiseParamError_ports : (raiseParamError cause outLen s).ports = s.ports := rfl
@[simp] theorem raiseParamError_bufBase : (raiseParamError cause outLen s).bufBase = s.bufBase := rfl
@[simp] theorem raiseParamError_out : (raiseParamError cause outLen s).out =
    ⟨statusParamError, Config.freeByte s.draws, Config.freeByte (s.draws + 1)⟩ := rfl
@[simp] theorem raiseParamError_mem : (raiseParamError cause outLen s).mem =
    s.mem.drawBytes s.bufBase (s.draws + 2) (reachable outLen) := rfl
@[simp] theorem raiseParamError_calls : (raiseParamError cause outLen s).calls = s.calls := rfl
@[simp] theorem raiseParamError_draws : (raiseParamError cause outLen s).draws = s.draws + 4 := rfl

@[simp] theorem idle_vw : (idle s).vw = s.vw := rfl
@[simp] theorem idle_ports : (idle s).ports = s.ports := rfl
@[simp] theorem idle_bufBase : (idle s).bufBase = s.bufBase := rfl
@[simp] theorem idle_out : (idle s).out = Outputs.free s.draws := rfl
@[simp] theorem idle_mem : (idle s).mem = s.mem := rfl
@[simp] theorem idle_calls : (idle s).calls = s.calls := rfl
@[simp] theorem idle_draws : (idle s).draws = s.draws + 3 := rfl

@[simp] theorem sample_vw : (sample c rest s).vw = s.vw := rfl
@[simp] theorem sample_ports : (sample c rest s).ports = c.ports := rfl
@[simp] theorem sample_bufBase : (sample c rest s).bufBase = c.bufBase := rfl
@[simp] theorem sample_out : (sample c rest s).out = s.out := rfl
@[simp] theorem sample_mem : (sample c rest s).mem = s.mem := rfl
@[simp] theorem sample_calls : (sample c rest s).calls = rest := rfl
@[simp] theorem sample_draws : (sample c rest s).draws = s.draws := rfl

@[simp] theorem instr_ofInstr (i : Instr) : (Ports.ofInstr i).instr = i := by cases i; rfl
@[simp] theorem ofInstr_instr (p : Ports) : Ports.ofInstr p.instr = p := rfl

end Sys2Proof.Machine
end

