-- ==== Sys2Proof/Laws/Ops.lean ====
section
/-! SUPPORT. For each shared operation, once, everything it can do. -/

namespace Sys2Proof.Machine

@[simp] theorem andThen_next (s : State) (k : State → Result) : andThen (.next s) k = k s := rfl
@[simp] theorem andThen_fault (f : Fault) (k : State → Result) : andThen (.fault f) k = .fault f := rfl
@[simp] theorem andThen_refused (f : Refusal) (k : State → Result) : andThen (.refused f) k = .refused f := rfl

/-- A write inside the buffer offered goes to its address and changes nothing else. -/
theorem memWrite_inside {outLen index : Nat} (v : Byte) (s : State) (h : index < outLen) :
    memWrite outLen index v s = .next { s with mem := s.mem.write (bufAddr s index) v } := by
  simp [memWrite, h]

/-- A write that answers a next state was inside the buffer offered. -/
theorem memWrite_next {outLen index : Nat} {v : Byte} {s t : State} (h : memWrite outLen index v s = .next t) :
    index < outLen ∧ t = { s with mem := s.mem.write (bufAddr s index) v } := by
  unfold memWrite at h
  split at h
  · exact ⟨‹_›, by simpa using h.symm⟩
  · cases h

/-- There is no cause of a parameter error exactly on the legal invocations (R51, R39). -/
theorem paramCause_eq_none {cfgValid : Bool} {outLen : Nat} :
    paramCause cfgValid outLen = none ↔ cfgValid = true ∧ outLen = 2 := by
  cases cfgValid <;> simp [paramCause, Config.frameLen]

theorem legal_iff {cfgValid ab buf ga shdn : Bool} {value outLen : Nat} :
    (Instr.encode cfgValid ab buf ga shdn value outLen).legal = true ↔ cfgValid = true ∧ outLen = 2 := by
  simp [Instr.legal, Config.frameLen]

/-- The parameter error on the caller's memory: the bytes the encoder could reach hold free values, every other
byte is as before (R54). -/
theorem read_raiseParamError (cause : ParamCause) (outLen : Nat) (s : State) (a : Nat) :
    (raiseParamError cause outLen s).mem.read a =
      if s.bufBase ≤ a ∧ a < s.bufBase + reachable outLen then
        some (Config.freeByte (s.draws + 2 + (a - s.bufBase)))
      else s.mem.read a := by
  rw [raiseParamError_mem, read_drawBytes]

/-- The cause is not an output (R53): the error is the same state whatever it is told. -/
theorem raiseParamError_cause (c c' : ParamCause) (outLen : Nat) (s : State) :
    raiseParamError c outLen s = raiseParamError c' outLen s := rfl

theorem configRefusal_eq_none {vw : Nat} : configRefusal vw = none ↔ widthAllowed vw = true := by
  unfold configRefusal
  cases widthAllowed vw <;> simp

theorem callRefusal_eq_none {vw : Nat} {c : Call} :
    callRefusal vw c = none ↔ c.held = true ∧ c.ports.instr.fitsPort vw = true := by
  unfold callRefusal
  cases c.ports.instr.fitsPort vw <;> cases c.held <;> simp

/-- An invocation is well formed for a machine exactly where its configuration is admitted and its port fits. -/
theorem wellFormed_iff {vw : Nat} {i : Instr} :
    i.wellFormed vw = true ↔ widthAllowed vw = true ∧ i.fitsPort vw = true := by
  simp [Instr.wellFormed]

end Sys2Proof.Machine
end

