-- ==== Sys2Proof/Laws/Exec.lean ====
section
/-! SUPPORT. What ENCODE and a step can do, said once; what every proof about a run starts from. -/

namespace Sys2Proof.Machine

/-- A legal invocation ends with its frame on the output ports and in the buffer, and nothing else changed. -/
theorem exec_legal (ab buf ga shdn : Bool) (value : Nat) (s : State) :
    exec (.encode true ab buf ga shdn value 2) s = .next { s with
      out := ⟨statusOk, frameByte0 ab buf ga shdn value, frameByte1 value⟩
      mem := (s.mem.write s.bufBase (frameByte0 ab buf ga shdn value)).write (s.bufBase + 1)
        (frameByte1 value) } := by
  simp [exec, execEncode, paramCause_eq_none.2, memWrite_inside, finishOk, bufAddr]

/-- An illegal invocation ends in the parameter error, with the cause R43's tests find first. -/
theorem exec_illegal {cfgValid ab buf ga shdn : Bool} {value outLen : Nat} (s : State)
    (h : ¬(cfgValid = true ∧ outLen = 2)) : ∃ cause,
      exec (.encode cfgValid ab buf ga shdn value outLen) s = .next (raiseParamError cause outLen s) := by
  cases hc : paramCause cfgValid outLen with
  | none => exact absurd (paramCause_eq_none.1 hc) h
  | some cause => exact ⟨cause, by simp [exec, execEncode, hc]⟩

/-- The kinds of step: a configuration refused, a step without an invocation, an invocation run. -/
theorem step_narrow {s : State} (h : widthAllowed s.vw = false) : step s = .refused (.portTooNarrow s.vw) := by
  simp [step, configRefusal, h]

theorem step_idle {s : State} (hv : widthAllowed s.vw = true) (h : s.calls = []) : step s = .next (idle s) := by
  simp [step, configRefusal_eq_none.2 hv, h]

theorem step_run {s : State} {c : Call} {rest : List Call} (h : s.calls = c :: rest)
    (hc : c.held = true ∧ c.ports.instr.wellFormed s.vw = true) :
    step s = exec c.ports.instr (sample c rest s) := by
  obtain ⟨hv, hf⟩ := wellFormed_iff.1 hc.2
  simp [step, configRefusal_eq_none.2 hv, h, callRefusal_eq_none.2 ⟨hc.1, hf⟩]

/-- An invocation the model does not admit, on a configuration it does, is refused. -/
theorem step_refuse {s : State} {c : Call} {rest : List Call} {r : Refusal} (hv : widthAllowed s.vw = true)
    (h : s.calls = c :: rest) (hc : callRefusal s.vw c = some r) : step s = .refused r := by
  simp [step, configRefusal_eq_none.2 hv, h, hc]

/-- A step that answers a next state was on an admitted configuration, and was idle or ran an admitted invocation. -/
theorem step_next {s t : State} (h : step s = .next t) :
    widthAllowed s.vw = true ∧
    ((s.calls = [] ∧ t = idle s) ∨
    (∃ c rest, s.calls = c :: rest ∧ c.held = true ∧ c.ports.instr.wellFormed s.vw = true ∧
      exec c.ports.instr (sample c rest s) = .next t)) := by
  cases hv : widthAllowed s.vw with
  | false => rw [step_narrow hv] at h; cases h
  | true =>
    refine ⟨rfl, ?_⟩
    cases hs : s.calls with
    | nil => exact .inl ⟨rfl, by simpa [step_idle hv hs] using h.symm⟩
    | cons c rest =>
      cases hc : callRefusal s.vw c with
      | some r => rw [step_refuse hv hs hc] at h; cases h
      | none =>
        obtain ⟨hheld, hf⟩ := callRefusal_eq_none.1 hc
        have hwf := wellFormed_iff.2 ⟨hv, hf⟩
        exact .inr ⟨c, rest, rfl, hheld, hwf, by rwa [step_run hs ⟨hheld, hwf⟩] at h⟩

/-- A run of `k + 1` steps is one step and then `k`, whatever the step answers. -/
theorem run_next {s t : State} (k : Nat) (h : step s = .next t) :
    Sys2Proof.core.run (k + 1) s = Sys2Proof.core.run k t := by
  have hs : Sys2Proof.core.step s = .next t := h
  simp only [Host.Core.run, hs]

theorem run_fault {s : State} {f : Fault} (k : Nat) (h : step s = .fault f) :
    Sys2Proof.core.run (k + 1) s = .fault f := by
  have hs : Sys2Proof.core.step s = .fault f := h
  simp only [Host.Core.run, hs]

theorem run_refused {s : State} {f : Refusal} (k : Nat) (h : step s = .refused f) :
    Sys2Proof.core.run (k + 1) s = .refused f := by
  have hs : Sys2Proof.core.step s = .refused f := h
  simp only [Host.Core.run, hs]

/-- Runs add up. -/
theorem run_add {j : Nat} (k : Nat) {s t : State} (h : Sys2Proof.core.run j s = .next t) :
    Sys2Proof.core.run (j + k) s = Sys2Proof.core.run k t := by
  induction j generalizing s with
  | zero => cases h; rw [Nat.zero_add]
  | succ j ih =>
    cases hs : step s with
    | next u => rw [run_next _ hs] at h; rw [Nat.add_right_comm, run_next _ hs]; exact ih h
    | fault f => rw [run_fault _ hs] at h; cases h
    | refused f => rw [run_refused _ hs] at h; cases h

end Sys2Proof.Machine
end

