-- ==== Sys2Proof/Laws/Operands.lean ====
section
/-! SUPPORT. Each bit of the two frame bytes, said once (30_encoding.md R36 to R38). -/

namespace Sys2Proof.Machine

theorem flagNibble_getLsbD (ab buf ga shdn : Bool) (k : Nat) :
    (flagNibble ab buf ga shdn).getLsbD k =
      if k = 0 then shdn else if k = 1 then ga else if k = 2 then buf else if k = 3 then ab else false := by
  rcases k with _ | _ | _ | _ | k <;> cases ab <;> cases buf <;> cases ga <;> cases shdn <;>
    first | rfl | exact BitVec.getLsbD_of_ge _ _ (by omega)

theorem valueField_getLsbD (value k : Nat) :
    (valueField value).getLsbD k = (decide (k < 12) && value.testBit k) := by
  simp [valueField, BitVec.getLsbD_ofNat]

theorem frameByte1_getLsbD (value k : Nat) :
    (frameByte1 value).getLsbD k = (decide (k < 8) && value.testBit k) := by
  by_cases h : k < 8
  · rw [frameByte1, BitVec.getLsbD_extractLsb, valueField_getLsbD]
    simp [h, show k < 12 by omega]
  · simp [h, BitVec.getLsbD_of_ge _ k (by omega : 8 ≤ k)]

theorem frameByte0_getLsbD (ab buf ga shdn : Bool) (value k : Nat) :
    (frameByte0 ab buf ga shdn value).getLsbD k =
      if k < 4 then value.testBit (8 + k) else (flagNibble ab buf ga shdn).getLsbD (k - 4) := by
  unfold frameByte0
  rw [BitVec.getLsbD_append]
  by_cases h : k < 4
  · rw [BitVec.getLsbD_extractLsb, valueField_getLsbD]
    simp [h, show 8 + k < 12 by omega]
  · simp [h]

end Sys2Proof.Machine
end

