-- ==== Sys2Proof/Laws/PerInstr.lean ====
section
/-! SUPPORT. Statements about every instruction as syntax, one lemma per constructor of Instr. -/

namespace Sys2Proof.Laws

/-- Every invocation's frame has the one frame length, `FRAME_LEN` bytes (R6, R41), so that the decoder accepts it. -/
def FrameLength.Statement (i : Instr) : Prop :=
  (Sys2Proof.encode i).length = Config.frameLen ∧ ∃ j, decode (Sys2Proof.encode i) = .ok j

theorem FrameLength.encode (cfgValid ab buf ga shdn : Bool) (value outLen : Nat) :
    FrameLength.Statement (.encode cfgValid ab buf ga shdn value outLen) :=
  ⟨rfl, _, rfl⟩

end Sys2Proof.Laws
end

