-- ==== Sys2Proof/Tests/Slice0.lean ====
section
/-! SUPPORT. Tests with results from spec/ (its tables, vectors V1 to V30 and programs P1 to P4, named beside each),
and a witness for the hypotheses of every statement of Certificates/Slice0/Obligations.lean that has any. -/

namespace Sys2Proof.Tests

open Sys2Proof Sys2Proof.Machine

/-! ### WellFormed: an ill-formed term for each check -/

/-- R8: VW = 11 is refused, whatever the invocation; R8, V30: VW = 12 is admitted. -/
theorem test_narrow_port_is_ill_formed :
    (Instr.encode true false false false false 0 2).wellFormed 11 = false ∧
    (Instr.encode true true true true true 0xFFF 2).wellFormed 12 = true := by decide

/-- R15: 2^16 is no value of a 16-bit port; 2^16 - 1 is (V13). -/
theorem test_value_beyond_the_port_is_ill_formed :
    (Instr.encode true false false false false 0x10000 2).wellFormed 16 = false ∧
    (Instr.encode true false false false false 0xFFFF 2).wellFormed 16 = true := by decide

/-- R39: absent Configuration (V22) and length 3 (V25) are illegal; 4096 is legal but not carried whole (V12). -/
theorem test_illegal_and_truncated_invocations :
    (Instr.encode false false false false false 0x123 2).legal = false ∧
    (Instr.encode true false true true true 0x123 3).legal = false ∧
    (Instr.encode true false false false false 0x1000 2).legal = true ∧
    (Instr.encode true false false false false 0x1000 2).framed = false := by decide

/-! ### Decode: words written out from the table of R36 -/

/-- V16: 0111 0111 1111 1111 is `ENCODE 0111, 0x7FF, 2`. -/
theorem test_decode_worked_example :
    decode [0b01110111#8, 0b11111111#8] = .ok (.encode true false true true true 0x7FF 2) := by rfl

/-- V2 to V5: each flag alone at its bit of byte 0. -/
theorem test_decode_each_flag :
    decode [0b10000000#8, 0#8] = .ok (.encode true true false false false 0 2) ∧
    decode [0b01000000#8, 0#8] = .ok (.encode true false true false false 0 2) ∧
    decode [0b00100000#8, 0#8] = .ok (.encode true false false true false 0 2) ∧
    decode [0b00010000#8, 0#8] = .ok (.encode true false false false true 0 2) := ⟨rfl, rfl, rfl, rfl⟩

/-- V9, V10, V11: the value's bits across the two bytes. -/
theorem test_decode_value_bits :
    decode [0#8, 0b11111111#8] = .ok (.encode true false false false false 0x0FF 2) ∧
    decode [0b00000001#8, 0#8] = .ok (.encode true false false false false 0x100 2) ∧
    decode [0b00001000#8, 0#8] = .ok (.encode true false false false false 0x800 2) := ⟨rfl, rfl, rfl⟩

/-- R6, R41: no length but two bytes is a frame. -/
theorem test_decode_rejects_other_lengths :
    decode [0x77#8] = .error .tooShort ∧ decode [0x77#8, 0xFF#8, 0x00#8] = .error .tooLong := ⟨rfl, rfl⟩

/-- V17: the encoder's word for `ENCODE 1011, 0x333, 2` is 0xB333, and the table's numbering reads it back. -/
theorem test_encode_mixed_flags :
    encode (.encode true true false true true 0x333 2) = [0xB3#8, 0x33#8] ∧
    decodeTableWord 16 0xB333 = some (.encode true true false true true 0x333 2) := by decide

/-! ### ENCODE: one step each -/

/-- The buffer of program P2, `B = [0x12, 0x34, 0x56]`. -/
def bufferB : State :=
  { vw := 16, ports := Ports.zero, bufBase := 0, out := ⟨0#1, 0#8, 0#8⟩,
    mem := [(0, 0x12#8), (1, 0x34#8), (2, 0x56#8)], calls := [], draws := 0 }

/-- The next state's output ports and first bytes of the buffer, of an answer that is a next state. -/
def seen (r : Result) : Option (Outputs × List (Option Byte)) :=
  match r with
  | .next t => some (t.out, [t.mem.read 0, t.mem.read 1, t.mem.read 2])
  | .fault _ => none
  | .refused _ => none

/-- V14: discarded value bits do not reach the flags; P2 step 2: index 2 is not written. -/
theorem test_encode_discards_high_value_bits :
    seen (exec (.encode true true true true true 0xF000 2) bufferB) =
      some (⟨0#1, 0xF0#8, 0x00#8⟩, [some 0xF0#8, some 0x00#8, some 0x56#8]) := by decide

/-- P2 step 1 (V25): a buffer of three bytes is a parameter error, and index 2 keeps 0x56. -/
theorem test_encode_error_leaves_index_two :
    (seen (exec (.encode true false false true true 0x123 3) bufferB)).map
      (fun x => (x.1.status, x.2.getLast?)) = some (1#1, some (some 0x56#8)) := by decide

/-! ### The text form -/

/-- V16 and V22 as R42 writes them. -/
theorem test_parse_invocations :
    parseInvocation 16 ['E', 'N', 'C', 'O', 'D', 'E', ' ', '0', '1', '1', '1', ',', ' ', '0', 'x', '7', 'F', 'F', ',',
      ' ', '2'] = some (.encode true false true true true 0x7FF 2) ∧
    parseInvocation 16 ['E', 'N', 'C', 'O', 'D', 'E', ' ', '-', ',', ' ', '0', 'x', '1', '2', '3', ',', ' ', '2'] =
      some (.encode false false false false false 0x123 2) := by decide

/-- V16's result as R42 writes it. -/
theorem test_print_result :
    printResult ⟨0#1, 0x77#8, 0xFF#8⟩ =
      ['-', '>', ' ', 'o', 'k', ' ', 'b', '0', '=', '0', 'x', '7', '7', ' ', 'b', '1', '=', '0', 'x', 'F', 'F'] := by
  decide

/-! ### Witnesses: the hypotheses of each statement can be met -/

/-- A ready call: V7 (`ENCODE 0000, 0xFFF, 2`) on the buffer at 0. -/
def callV7 : Call := { ports := ⟨true, false, false, false, false, 0xFFF, 2⟩, bufBase := 0, held := true }

/-- A ready call with an error: V25 (`ENCODE 0111, 0x123, 3`) on the buffer at 0. -/
def callV25 : Call := { ports := ⟨true, false, true, true, true, 0x123, 3⟩, bufBase := 0, held := true }

/-- A ready call on the buffer right after that of `callV7`. -/
def callNext : Call := { callV7 with bufBase := 2 }

/-- `bufferB` with calls to come. -/
def withCalls (vw : Nat) (calls : List Call) : State := { bufferB with vw := vw, calls := calls }

theorem witness_EncodeComputesTheArithmeticFrame_legal : true = true ∧ (2 : Nat) = 2 := by decide

theorem witness_EncodeComputesTheArithmeticFrame_error :
    ¬(true = true ∧ (3 : Nat) = 2) ∧ ¬(true = true ∧ (1 : Nat) = 2) ∧ ¬(false = true ∧ (2 : Nat) = 2) := by decide

/-- Lengths 0, 1 and 3: no byte, one byte and both bytes reachable; addresses 1 and 2 lie outside. -/
theorem witness_ParameterErrorDrawsOnlyReachableBytes :
    ¬(true = true ∧ (0 : Nat) = 2) ∧ ¬(true = true ∧ (1 : Nat) = 2) ∧ ¬(true = true ∧ (3 : Nat) = 2) ∧
    (0 < 2 ∧ 0 < 1) ∧ (1 < 2 ∧ 1 < 3) ∧ (∀ k, k < 2 → k < 1 → 1 ≠ bufAddr bufferB k) ∧
    (∀ k, k < 2 → k < 3 → 2 ≠ bufAddr bufferB k) := by
  refine ⟨by decide, by decide, by decide, by decide, by decide, fun k _ h => ?_, fun k h _ => ?_⟩ <;>
    simp [bufAddr, bufferB] <;> omega

theorem witness_BothCausesAtOnceAreOneError : (1 : Nat) ≠ 2 ∧ (3 : Nat) ≠ 2 := by decide

theorem witness_PackingLaw : 0 < 4096 ∧ 4095 < 4096 := by decide

theorem witness_OutputsDependOnTheInvocationAlone : callV7.ports.instr.legal = true := by decide

/-- Addresses outside for lengths 0, 1 and 3 at their boundaries, and a legal invocation. -/
theorem witness_EncodeChangesOnlyOutputsReachableBytesAndDraws :
    (∀ k, k < min 0 2 → 0 ≠ bufAddr bufferB k) ∧ (∀ k, k < min 1 2 → 1 ≠ bufAddr bufferB k) ∧
    (∀ k, k < min 3 2 → 2 ≠ bufAddr bufferB k) ∧ (true = true ∧ (2 : Nat) = 2) := by
  refine ⟨by decide, fun k h => ?_, fun k h => ?_, by decide⟩ <;> simp [bufAddr, bufferB] <;> omega

theorem witness_NoInvocationDependsOnMemory : 0 < min 1 2 ∧ 1 < min 3 2 := by decide

theorem witness_LegalEncodeIsIdempotent : callV7.ports.instr.legal = true := by decide

theorem witness_OnlyTheTwoFrameBytesAreStored :
    2 ≠ bufAddr bufferB 0 ∧ 2 ≠ bufAddr bufferB 1 ∧ callV7.ports.instr.legal = true := by decide

theorem witness_EveryFrameBitHasItsSource : 3 < 4 ∧ 7 < 8 ∧ 11 < 12 := by decide

theorem witness_DecodeTakesExactlyTwoBytes :
    ([0#8] : List Byte).length < 2 ∧ ([0#8, 0#8] : List Byte).length = 2 ∧
    2 < ([0#8, 0#8, 0#8] : List Byte).length := by decide

theorem witness_DecodeAndEncodeAgree : (Instr.encode true true true true true 4095 2).framed = true := by decide

theorem witness_TextFormReadsBack :
    (Instr.encode false true true true true 4095 0).fitsPort 12 = true := by decide

theorem witness_StepRunsTheSampledInvocation :
    (withCalls 12 [callV7]).calls = callV7 :: [] ∧ callV7.held = true ∧
    callV7.ports.instr.wellFormed (withCalls 12 [callV7]).vw = true := by decide

theorem witness_StepRunsTheDecodedWord :
    12 ≤ (withCalls 12 []).vw ∧ decodeTableWord 16 0xFFFF = some (.encode true true true true true 4095 2) := by
  decide

/-- With a call to come and with none. -/
theorem witness_StepRefusesWhatTheSpecDoesNotAdmit_width :
    (withCalls 11 [callV7]).vw < 12 ∧ (withCalls 11 []).vw < 12 := by decide

/-- `callV7` with 4096, one beyond a 12-bit port (V12's value); and `callV7` with its inputs not held. -/
def callWide : Call := { callV7 with ports := { callV7.ports with value := 0x1000 } }

def callNotHeld : Call := { callV7 with held := false }

theorem witness_StepRefusesWhatTheSpecDoesNotAdmit_value :
    (withCalls 12 [callWide]).calls = callWide :: [] ∧ 12 ≤ (withCalls 12 [callWide]).vw ∧
    2 ^ (withCalls 12 [callWide]).vw ≤ callWide.ports.value := by decide

theorem witness_StepRefusesWhatTheSpecDoesNotAdmit_held :
    (withCalls 12 [callNotHeld]).calls = callNotHeld :: [] ∧ 12 ≤ (withCalls 12 [callNotHeld]).vw ∧
    callNotHeld.ports.value < 2 ^ (withCalls 12 [callNotHeld]).vw ∧ callNotHeld.held = false := by decide

theorem witness_IdleStepKeepsTheBuffers : 12 ≤ (withCalls 12 []).vw ∧ (withCalls 12 []).calls = [] := by decide

/-- The first index outside a buffer of two bytes; and a step that runs, with addresses outside on both sides. -/
theorem witness_NoStepWritesOutsideTheBuffer :
    2 ≤ 2 ∧ (withCalls 16 [callNext]).calls = callNext :: [] ∧
    (∃ t, step (withCalls 16 [callNext]) = .next t) ∧
    1 < callNext.bufBase ∧ callNext.bufBase + min callNext.ports.outLen 2 ≤ 4 :=
  ⟨by decide, rfl, ⟨_, rfl⟩, by decide, by decide⟩

theorem witness_EffectsDoNotDependOnVW :
    (withCalls 16 [callV7]).calls = callV7 :: [] ∧ callV7.held = true ∧
    callV7.ports.instr.wellFormed (withCalls 16 [callV7]).vw = true ∧
    callV7.ports.instr.wellFormed 12 = true := by decide

theorem withCalls_inv (calls : List Call) : Inv (withCalls 16 calls) := ⟨by show bufferB.mem.wf; decide, rfl, rfl⟩

theorem witness_EveryStepKeepsTheInvariant :
    Inv (withCalls 16 [callV25]) ∧ ∃ t, step (withCalls 16 [callV25]) = .next t :=
  ⟨withCalls_inv _, _, rfl⟩

theorem witness_ReadyCallsNeverStop :
    Inv (withCalls 16 [callV25, callV7]) ∧ Ready (withCalls 16 [callV25, callV7]) :=
  ⟨withCalls_inv _, ⟨rfl, by decide⟩⟩

/-- The run of `ReadyCallsNeverStop`'s second clause exists. -/
theorem witness_ReadyCallsNeverStop_run :
    ∃ t : State, Sys2Proof.core.run 2 (withCalls 16 [callV25, callV7]) = .next t := ⟨_, rfl⟩

theorem witness_LastInvocationAloneDecidesTheOutputs :
    Ready (withCalls 16 [callV25, callV7]) ∧ (withCalls 16 [callV25, callV7]).calls = [callV25] ++ [callV7] ∧
    callV7.ports.instr.legal = true := ⟨⟨rfl, by decide⟩, rfl, by decide⟩

theorem witness_AnErrorLeavesNoTrace :
    bufferB.mem.wf ∧ Ready { bufferB with calls := [callV25, callV7] } ∧ callV25.bufBase = callV7.bufBase ∧
    callV7.ports.instr.legal = true := ⟨by decide, ⟨rfl, by decide⟩, rfl, by decide⟩

theorem witness_InvocationsOnSeparateBuffersCommute :
    bufferB.mem.wf ∧ Ready { bufferB with calls := [callV7, callNext] } ∧ callV7.ports.instr.legal = true ∧
    callNext.ports.instr.legal = true ∧
    (callV7.bufBase + 2 ≤ callNext.bufBase ∨ callNext.bufBase + 2 ≤ callV7.bufBase) :=
  ⟨by decide, ⟨rfl, by decide⟩, by decide, by decide, by decide⟩

end Sys2Proof.Tests
end

/-! The 16-bit word view of a frame bit by bit (20_memory.md R24, 30_encoding.md R36), and the source of
every bit of the frame ENCODE answers. -/

namespace Sys2Proof.Machine

/-- R24: byte 1 is the low half of the word, byte 0 the high half. -/
theorem word_getLsbD (o : Outputs) (k : Nat) :
    o.word.getLsbD k = if k < 8 then o.b1.getLsbD k else o.b0.getLsbD (k - 8) :=
  BitVec.getLsbD_append

/-- Of a frame put together as R43 does, the word holds the value's low twelve bits below the flag nibble. -/
theorem frame_word_getLsbD (status : Bit) (ab buf ga shdn : Bool) (value k : Nat) :
    (Outputs.mk status (frameByte0 ab buf ga shdn value) (frameByte1 value)).word.getLsbD k =
      if k < 12 then value.testBit k else (flagNibble ab buf ga shdn).getLsbD (k - 12) := by
  rw [word_getLsbD, frameByte1_getLsbD, frameByte0_getLsbD]
  rcases Nat.lt_or_ge k 8 with h8 | h8
  · simp [h8, show k < 12 by omega]
  · have hk : 8 + (k - 8) = k := by omega
    rw [if_neg (by omega), hk, Nat.sub_sub]
    exact if_congr (by omega) rfl rfl

/-- Settles O13: the exact state of a legal ENCODE, then each column of R36's table from the bits of byte 0,
byte 1 and the word. -/
theorem everyFrameBitHasItsSource : Obligations.EveryFrameBitHasItsSource := by
  intro ab buf ga shdn value s
  refine ⟨_, exec_legal ab buf ga shdn value s, ?b0Flags, ?b0Value, ?b1Value, ?wordFlags, ?wordValue⟩
  case b0Flags => simp [-BitVec.getLsbD_eq_getElem, frameByte0_getLsbD, flagNibble_getLsbD]
  case b0Value => intro k hk; simp only [frameByte0_getLsbD, if_pos hk]
  case b1Value => intro k hk; simp only [frameByte1_getLsbD, hk, decide_true, Bool.true_and]
  case wordFlags => simp [-BitVec.getLsbD_eq_getElem, frame_word_getLsbD, flagNibble_getLsbD]
  case wordValue => intro k hk; simp only [frame_word_getLsbD, if_pos hk]

end Sys2Proof.Machine

/-! The frame of ENCODE as numbers and as fields (40_encode.md R43 to R45), the two bytes it stores (R49), and its
outputs as a function of the invocation alone (R47). -/

namespace Sys2Proof.Machine

/-- Putting one bit vector in front of another is positional arithmetic. -/
theorem toNat_append_eq_add {m n : Nat} (x : BitVec m) (y : BitVec n) :
    (x ++ y).toNat = 2 ^ n * x.toNat + y.toNat := by
  rw [BitVec.toNat_append, ← Nat.shiftLeft_add_eq_or_of_lt y.isLt, Nat.shiftLeft_eq, Nat.mul_comm]

@[simp] theorem valueField_toNat (value : Nat) : (valueField value).toNat = value % 4096 :=
  BitVec.toNat_ofNat value 12

/-- R37: the bits of the value above the twelfth do not reach the value field. -/
@[simp] theorem valueField_mod (value : Nat) : valueField (value % 4096) = valueField value :=
  BitVec.eq_of_toNat_eq (by simp)

theorem flagNibble_toNat (ab buf ga shdn : Bool) :
    (flagNibble ab buf ga shdn).toNat = 8 * ab.toNat + 4 * buf.toNat + 2 * ga.toNat + shdn.toNat := by
  simp only [flagNibble, toNat_append_eq_add, BitVec.toNat_ofBool]
  omega

theorem frameByte0_toNat (ab buf ga shdn : Bool) (value : Nat) :
    (frameByte0 ab buf ga shdn value).toNat =
      16 * (8 * ab.toNat + 4 * buf.toNat + 2 * ga.toNat + shdn.toNat) + value % 4096 / 256 := by
  have hHigh : ((valueField value).extractLsb 11 8).toNat = value % 4096 / 256 := by
    rw [BitVec.extractLsb_toNat, valueField_toNat, Nat.shiftRight_eq_div_pow]
    omega
  rw [frameByte0, toNat_append_eq_add, flagNibble_toNat, hHigh]
  rfl

theorem frameByte1_toNat (value : Nat) : (frameByte1 value).toNat = value % 256 := by
  rw [frameByte1, BitVec.extractLsb_toNat, valueField_toNat, Nat.shiftRight_zero]
  omega

/-- R38: `b0[7:4]` is the flag nibble. -/
theorem frameByte0_flags (ab buf ga shdn : Bool) (value : Nat) :
    (frameByte0 ab buf ga shdn value).extractLsb 7 4 = flagNibble ab buf ga shdn :=
  BitVec.extractLsb'_append_eq_left

/-- R37: `b0[3:0]` is the high part of the value field. -/
theorem frameByte0_value (ab buf ga shdn : Bool) (value : Nat) :
    (frameByte0 ab buf ga shdn value).extractLsb 3 0 = (valueField value).extractLsb 11 8 :=
  BitVec.extractLsb'_append_eq_right

/-- R37: `b0[3:0] ++ b1` is the whole value field. -/
theorem frame_value (ab buf ga shdn : Bool) (value : Nat) :
    (frameByte0 ab buf ga shdn value).extractLsb 3 0 ++ frameByte1 value = valueField value := by
  rw [frameByte0_value]
  exact BitVec.extractLsb'_append_extractLsb' (w := 4) (len := 8)

/-- R49: a legal invocation leaves the two bytes of the output ports at indices 0 and 1 of the buffer offered, and
every other byte of memory as it was. -/
theorem exec_legal_stores (ab buf ga shdn : Bool) (value : Nat) (s : State) :
    ∃ t, exec (.encode true ab buf ga shdn value 2) s = .next t ∧
      t.out = ⟨statusOk, frameByte0 ab buf ga shdn value, frameByte1 value⟩ ∧
      t.mem.read (bufAddr s 0) = some t.out.b0 ∧ t.mem.read (bufAddr s 1) = some t.out.b1 ∧
      ∀ a, a ≠ bufAddr s 0 → a ≠ bufAddr s 1 → t.mem.read a = s.mem.read a := by
  refine ⟨_, exec_legal ab buf ga shdn value s, rfl, ?index0, ?index1, ?others⟩
  case index0 => exact (read_write_other _ _ (by simp [bufAddr])).trans (read_write_same _ _ _)
  case index1 => exact read_write_same _ _ _
  case others => exact fun a h0 h1 => (read_write_other _ _ h1).trans (read_write_other _ _ h0)

/-- Settles O1: a legal invocation ends with R43's two bytes, read as numbers, on the ports and in the buffer; any
other ends in the parameter error. -/
theorem encodeComputesTheArithmeticFrame : Obligations.EncodeComputesTheArithmeticFrame := by
  intro cfgValid ab buf ga shdn value outLen s
  constructor
  case left =>
    rintro ⟨rfl, rfl⟩
    obtain ⟨t, hExec, hOut, hIndex0, hIndex1, _⟩ := exec_legal_stores ab buf ga shdn value s
    refine ⟨t, hExec, ?_, ?_, ?_, hIndex0, hIndex1⟩ <;> rw [hOut]
    · exact frameByte0_toNat ab buf ga shdn value
    · exact frameByte1_toNat value
  case right =>
    intro hIllegal
    obtain ⟨cause, hExec⟩ := exec_illegal s hIllegal
    exact ⟨_, hExec, rfl⟩

/-- Settles O9: the frame's two fields are the flag nibble and the value field, which holds a value below 4096
whole. -/
theorem packingLaw : Obligations.PackingLaw := by
  intro ab buf ga shdn value s hValue
  refine ⟨_, exec_legal ab buf ga shdn value s, frameByte0_flags ab buf ga shdn value, ?_⟩
  rw [frame_value, valueField_toNat, Nat.mod_eq_of_lt hValue]

/-- Settles O10: the value enters the frame through the value field alone, which drops everything above 4095. -/
theorem truncationLaw : Obligations.TruncationLaw := by
  intro ab buf ga shdn value s
  refine ⟨_, exec_legal ab buf ga shdn value s, ?_⟩
  rw [exec_legal]
  simp only [frameByte0, frameByte1, valueField_mod]

/-- Settles O11: a legal invocation drives its frame from every state, an illegal one the error status. -/
theorem outputsDependOnTheInvocationAlone : Obligations.OutputsDependOnTheInvocationAlone := by
  rintro ⟨cfgValid, ab, buf, ga, shdn, value, outLen⟩ s s'
  by_cases hLegal : cfgValid = true ∧ outLen = 2
  · obtain ⟨rfl, rfl⟩ := hLegal
    exact ⟨_, _, exec_legal ab buf ga shdn value s, exec_legal ab buf ga shdn value s', rfl, fun _ => rfl⟩
  · obtain ⟨_, hExec⟩ := exec_illegal s hLegal
    obtain ⟨_, hExec'⟩ := exec_illegal s' hLegal
    exact ⟨_, _, hExec, hExec', rfl, fun h => absurd (legal_iff.1 h) hLegal⟩

/-- Settles O2: the stores are those of the legal invocation; that nothing is loaded is determinism (O11) between two
states that differ in memory alone. -/
theorem onlyTheTwoFrameBytesAreStored : Obligations.OnlyTheTwoFrameBytesAreStored := by
  constructor
  case left =>
    intro ab buf ga shdn value s
    obtain ⟨t, hExec, _, hIndex0, hIndex1, hOthers⟩ := exec_legal_stores ab buf ga shdn value s
    exact ⟨t, hExec, hIndex0, hIndex1, hOthers⟩
  case right =>
    intro i s m
    obtain ⟨u, t, hMem, hExec, hStatus, hOut⟩ := outputsDependOnTheInvocationAlone i { s with mem := m } s
    exact ⟨t, u, hExec, hMem, hStatus, hOut⟩

end Sys2Proof.Machine

/-! What every invocation keeps, legal or not: it completes, and it touches nothing but the output ports, the reachable
bytes of the buffer offered and the draws (20_memory.md R22; 60_exceptions.md R53, R54). -/

namespace Sys2Proof.Machine

/-- A frame put at the two bytes from `base` on, index 0 and then index 1 (R43). -/
def Memory.storeFrame (m : Memory) (base : Nat) (o : Outputs) : Memory :=
  (m.write base o.b0).write (base + 1) o.b1

theorem storeFrame_wf {m : Memory} (base : Nat) (o : Outputs) (h : m.wf) : (m.storeFrame base o).wf :=
  write_wf _ _ (write_wf _ _ h)

theorem read_storeFrame (m : Memory) (base : Nat) (o : Outputs) (a : Nat) :
    (m.storeFrame base o).read a =
      if a = base then some o.b0 else if a = base + 1 then some o.b1 else m.read a := by
  unfold Memory.storeFrame
  rcases eq_or_ne a (base + 1) with rfl | h1
  · simp
  · rw [read_write_other _ _ h1, if_neg h1]
    rcases eq_or_ne a base with rfl | h0
    · simp
    · rw [read_write_other _ _ h0, if_neg h0]

theorem read_storeFrame_outside (m : Memory) {base a : Nat} (o : Outputs) (h : a < base ∨ base + 2 ≤ a) :
    (m.storeFrame base o).read a = m.read a := by
  rw [read_storeFrame, if_neg (by omega), if_neg (by omega)]

/-- The output ports after a legal invocation with these inputs. -/
def Ports.frame (p : Ports) : Outputs :=
  ⟨statusOk, frameByte0 p.ab p.buf p.ga p.shdn p.value, frameByte1 p.value⟩

/-- The whole effect of a legal invocation, told by the ports that present it. -/
theorem exec_of_legal {p : Ports} (s : State) (h : p.instr.legal = true) :
    exec p.instr s = .next { s with out := p.frame, mem := s.mem.storeFrame s.bufBase p.frame } := by
  obtain ⟨cfgValid, ab, buf, ga, shdn, value, outLen⟩ := p
  obtain ⟨rfl, rfl⟩ := legal_iff.1 h
  exact exec_legal ab buf ga shdn value s

/-- The whole effect of an illegal invocation, told by the ports that present it: the one error of R53, whichever
cause is named. -/
theorem exec_of_illegal (cause : ParamCause) {p : Ports} (s : State) (h : ¬p.instr.legal = true) :
    exec p.instr s = .next (raiseParamError cause p.outLen s) := by
  obtain ⟨found, hExec⟩ := exec_illegal s fun hl => h (legal_iff.2 hl)
  exact hExec.trans (congrArg _ (raiseParamError_cause found cause p.outLen s))

/-- Every invocation completes, from every state. -/
theorem exec_completes (p : Ports) (s : State) : ∃ t, exec p.instr s = .next t := by
  by_cases h : p.instr.legal = true
  · exact ⟨_, exec_of_legal s h⟩
  · exact ⟨_, exec_of_illegal .badLength s h⟩

/-- Everything an invocation that completes can have done. -/
theorem exec_next {p : Ports} {s t : State} (h : exec p.instr s = .next t) :
    (p.instr.legal = true ∧ p.outLen = 2 ∧
      t = { s with out := p.frame, mem := s.mem.storeFrame s.bufBase p.frame }) ∨
    (¬p.instr.legal = true ∧ ∃ cause, t = raiseParamError cause p.outLen s) := by
  by_cases hl : p.instr.legal = true
  · rw [exec_of_legal s hl] at h
    exact .inl ⟨hl, (legal_iff.1 hl).2, (Host.Outcome.next.inj h).symm⟩
  · rw [exec_of_illegal .badLength s hl] at h
    exact .inr ⟨hl, .badLength, (Host.Outcome.next.inj h).symm⟩

/-- What an invocation that completes leaves as it was, of the fields it could have written. -/
structure FieldsKept (s t : State) : Prop where
  vw : t.vw = s.vw
  ports : t.ports = s.ports
  bufBase : t.bufBase = s.bufBase
  calls : t.calls = s.calls

theorem exec_fieldsKept {p : Ports} {s t : State} (h : exec p.instr s = .next t) : FieldsKept s t := by
  obtain ⟨_, _, rfl⟩ | ⟨_, _, rfl⟩ := exec_next h <;> exact ⟨rfl, rfl, rfl, rfl⟩

theorem exec_mem_wf {p : Ports} {s t : State} (h : exec p.instr s = .next t) (hm : s.mem.wf) : t.mem.wf := by
  obtain ⟨_, _, rfl⟩ | ⟨_, _, rfl⟩ := exec_next h
  · exact storeFrame_wf _ _ hm
  · exact drawBytes_wf _ _ _ hm

/-- R22, R54: no byte below the buffer offered, or at `min(out_len, 2)` bytes from its beginning or later, changes. -/
theorem exec_read_outside {p : Ports} {s t : State} (h : exec p.instr s = .next t) {a : Nat}
    (ha : a < s.bufBase ∨ s.bufBase + min p.outLen 2 ≤ a) : t.mem.read a = s.mem.read a := by
  obtain ⟨_, hLen, rfl⟩ | ⟨_, cause, rfl⟩ := exec_next h
  · rw [hLen] at ha
    exact read_storeFrame_outside _ _ ha
  · rw [read_raiseParamError, if_neg]
    rw [show reachable p.outLen = min p.outLen 2 from rfl]
    omega

/-- An address that is none of the first `n` of a buffer lies below it or beyond them. -/
theorem outside_of_ne_bufAddr {s : State} {n a : Nat} (h : ∀ k, k < n → a ≠ bufAddr s k) :
    a < s.bufBase ∨ s.bufBase + n ≤ a := by
  by_contra hc
  exact h (a - s.bufBase) (by omega) (by unfold bufAddr; omega)

end Sys2Proof.Machine

/-! The invariant along every step and every run, and the runs of a caller that does what R65 asks. -/

namespace Sys2Proof.Machine

/-- Settles O30: an idle step touches no field the invariant speaks of; a step that runs a call puts its ports, which
fit, on the input ports and otherwise keeps what every invocation keeps. -/
theorem everyStepKeepsTheInvariant : Obligations.EveryStepKeepsTheInvariant := by
  intro s t hInv hStep
  obtain ⟨hWidth, ⟨_, rfl⟩ | ⟨c, rest, _, _, hWf, hExec⟩⟩ := step_next hStep
  case inl => exact ⟨⟨hInv.memCanonical, hWidth, hInv.valueOnPort⟩, rfl⟩
  case inr =>
    obtain ⟨hVw, hPorts, _, _⟩ := exec_fieldsKept hExec
    rw [sample_vw] at hVw
    rw [sample_ports] at hPorts
    refine ⟨⟨exec_mem_wf hExec hInv.memCanonical, ?_, ?_⟩, hVw⟩
    · rwa [hVw]
    · rw [hVw, hPorts]
      exact (wellFormed_iff.1 hWf).2

/-- A ready call on an admitted configuration is one `step_run` speaks of. -/
theorem ready_wellFormed {vw : Nat} {c : Call} (hWidth : widthAllowed vw = true) (h : c.ready vw = true) :
    c.held = true ∧ c.ports.instr.wellFormed vw = true := by
  obtain ⟨hHeld, hFits⟩ := Bool.and_eq_true_iff.1 h
  exact ⟨hHeld, wellFormed_iff.2 ⟨hWidth, hFits⟩⟩

theorem step_of_ready {s : State} {c : Call} {rest : List Call} (h : Ready s) (hs : s.calls = c :: rest) :
    step s = exec c.ports.instr (sample c rest s) :=
  step_run hs (ready_wellFormed h.widthIsAllowed (h.callsReady c (hs ▸ List.mem_cons_self)))

/-- Progress: a state with ready calls steps, takes the first of them, and is ready for the rest. -/
theorem ready_step {s : State} (h : Ready s) :
    ∃ t, step s = .next t ∧ Ready t ∧ t.calls = s.calls.drop 1 ∧ t.vw = s.vw := by
  cases hs : s.calls with
  | nil => exact ⟨_, step_idle h.widthIsAllowed hs, ⟨h.widthIsAllowed, h.callsReady⟩, hs, rfl⟩
  | cons c rest =>
    obtain ⟨t, ht⟩ := exec_completes c.ports (sample c rest s)
    obtain ⟨hVw, _, _, hCalls⟩ := exec_fieldsKept ht
    rw [sample_vw] at hVw
    rw [sample_calls] at hCalls
    have hWidth : widthAllowed t.vw = true := hVw ▸ h.widthIsAllowed
    refine ⟨t, (step_of_ready h hs).trans ht, ⟨hWidth, fun d hd => ?_⟩, hCalls, hVw⟩
    rw [hVw]
    exact h.callsReady d (hs ▸ List.mem_cons_of_mem c (hCalls ▸ hd))

theorem ready_run (k : Nat) {s : State} (h : Ready s) :
    ∃ t, Sys2Proof.core.run k s = .next t ∧ Ready t ∧ t.calls = s.calls.drop k ∧ t.vw = s.vw := by
  induction k generalizing s with
  | zero => exact ⟨s, rfl, h, rfl, rfl⟩
  | succ k ih =>
    obtain ⟨u, hStep, hReady, hCalls, hVw⟩ := ready_step h
    obtain ⟨t, hRun, hReady', hCalls', hVw'⟩ := ih hReady
    refine ⟨t, (run_next k hStep).trans hRun, hReady', ?_, hVw'.trans hVw⟩
    rw [hCalls', hCalls, List.drop_drop, Nat.add_comm]

/-- The invariant holds after every run from a state that has it: the induction on steps, once. -/
theorem run_keeps_inv {k : Nat} {s t : State} (hInv : Inv s) (h : Sys2Proof.core.run k s = .next t) : Inv t := by
  induction k generalizing s with
  | zero => cases h; exact hInv
  | succ k ih =>
    cases hStep : step s with
    | next u =>
      rw [run_next k hStep] at h
      exact ih (everyStepKeepsTheInvariant s u hInv hStep).1 h
    | fault f => rw [run_fault k hStep] at h; cases h
    | refused r => rw [run_refused k hStep] at h; cases h

/-- Settles O31: progress along `k` steps, and the invariant at the end of them. -/
theorem readyCallsNeverStop : Obligations.ReadyCallsNeverStop := by
  intro k s hInv hReady
  obtain ⟨t, hRun, hReadyT, hCalls, _⟩ := ready_run k hReady
  refine ⟨⟨t, hRun⟩, fun u hu => ?_⟩
  obtain rfl : t = u := Host.Outcome.next.inj (hRun.symm.trans hu)
  exact ⟨run_keeps_inv hInv hRun, hReadyT, hCalls⟩

end Sys2Proof.Machine

/-! The encoder of the frame table, the receiver's decoder and the frame ENCODE answers, tied to one another
(30_encoding.md section 5). -/

namespace Sys2Proof.Machine

/-- R24: the two bytes of a word are the bytes of the frame whose word it is. -/
theorem frameBytes_word (o : Outputs) : frameBytes o.word = [o.b0, o.b1] := by
  have h0 : o.word.extractLsb 15 8 = o.b0 := BitVec.extractLsb'_append_eq_left
  have h1 : o.word.extractLsb 7 0 = o.b1 := BitVec.extractLsb'_append_eq_right
  rw [frameBytes, h0, h1]

/-- The word laid out by the table of R36 is the word of the frame put together by R43's pseudocode. -/
theorem frameWord_eq_word (status : Bit) (cfgValid ab buf ga shdn : Bool) (value outLen : Nat) :
    frameWord (.encode cfgValid ab buf ga shdn value outLen) =
      (Outputs.mk status (frameByte0 ab buf ga shdn value) (frameByte1 value)).word := by
  refine BitVec.eq_of_getLsbD_eq fun k hk => ?_
  rw [frameWord_getLsbD, frame_word_getLsbD, flagNibble_getLsbD]
  rcases Nat.lt_or_ge k 12 with h | h
  · rw [if_pos h, if_pos h]
  · simp only [show ¬k < 12 by omega, if_false]
    interval_cases k <;> rfl

theorem encode_eq (cfgValid ab buf ga shdn : Bool) (value outLen : Nat) :
    encode (.encode cfgValid ab buf ga shdn value outLen) =
      [frameByte0 ab buf ga shdn value, frameByte1 value] := by
  rw [encode, frameWord_eq_word statusOk, frameBytes_word]

/-- R40: the receiver reads the flags, and the value modulo 4096, from the frame of an invocation. -/
theorem decode_frame (ab buf ga shdn : Bool) (value : Nat) :
    decode [frameByte0 ab buf ga shdn value, frameByte1 value] =
      .ok (.encode true ab buf ga shdn (value % 4096) 2) := by
  have bit (k : Nat) (h : 4 ≤ k) : (frameByte0 ab buf ga shdn value).getLsbD k =
      (flagNibble ab buf ga shdn).getLsbD (k - 4) := by
    rw [frameByte0_getLsbD, if_neg (by omega)]
  rw [decode, bit 7 (by omega), bit 6 (by omega), bit 5 (by omega), bit 4 (by omega), frame_value,
    valueField_toNat]
  simp only [flagNibble_getLsbD]
  rfl

/-- The flag nibble of a byte's upper four bits is its upper half. -/
theorem flagNibble_of_byte (b : Byte) :
    flagNibble (b.getLsbD 7) (b.getLsbD 6) (b.getLsbD 5) (b.getLsbD 4) = b.extractLsb 7 4 := by
  refine BitVec.eq_of_getLsbD_eq fun k hk => ?_
  rw [flagNibble_getLsbD, BitVec.getLsbD_extractLsb]
  interval_cases k <;> rfl

@[simp] theorem valueField_toNat_self (v : Code) : valueField v.toNat = v :=
  BitVec.eq_of_toNat_eq (by rw [valueField_toNat, Nat.mod_eq_of_lt v.isLt])

/-- R39: every two bytes are the frame of the flags and the value the receiver reads from them. -/
theorem frame_of_bytes (b0 b1 : Byte) :
    frameByte0 (b0.getLsbD 7) (b0.getLsbD 6) (b0.getLsbD 5) (b0.getLsbD 4)
      (b0.extractLsb 3 0 ++ b1).toNat = b0 ∧ frameByte1 (b0.extractLsb 3 0 ++ b1).toNat = b1 := by
  have hField : valueField (b0.extractLsb 3 0 ++ b1).toNat = b0.extractLsb 3 0 ++ b1 :=
    valueField_toNat_self (b0.extractLsb 3 0 ++ b1)
  have hHigh : (b0.extractLsb 3 0 ++ b1 : Code).extractLsb 11 8 = b0.extractLsb 3 0 :=
    BitVec.extractLsb'_append_eq_left
  have hLow : (b0.extractLsb 3 0 ++ b1 : Code).extractLsb 7 0 = b1 := BitVec.extractLsb'_append_eq_right
  constructor
  · rw [frameByte0, hField, hHigh, flagNibble_of_byte]
    exact BitVec.extractLsb'_append_extractLsb' (w := 4) (len := 4)
  · rw [frameByte1, hField, hLow]

/-- The frame determines the flags and the value modulo 4096: the receiver reads them from it. -/
theorem frame_injective {ab buf ga shdn ab' buf' ga' shdn' : Bool} {value value' : Nat}
    (h0 : frameByte0 ab buf ga shdn value = frameByte0 ab' buf' ga' shdn' value')
    (h1 : frameByte1 value = frameByte1 value') :
    ab = ab' ∧ buf = buf' ∧ ga = ga' ∧ shdn = shdn' ∧ value % 4096 = value' % 4096 := by
  have h := decode_frame ab buf ga shdn value
  rw [h0, h1, decode_frame] at h
  simpa [eq_comm] using h

theorem framed_iff {cfgValid ab buf ga shdn : Bool} {value outLen : Nat} :
    (Instr.encode cfgValid ab buf ga shdn value outLen).framed = true ↔
      (cfgValid = true ∧ outLen = 2) ∧ value < 4096 := by
  rw [Instr.framed, Bool.and_eq_true, legal_iff, decide_eq_true_iff, two_pow_valueBits]

/-- Settles O18: a framed invocation's bytes are R43's, from which the receiver reads a value below 4096 whole; and
two bytes are the frame of what the receiver reads from them. -/
theorem decodeAndEncodeAgree : Obligations.DecodeAndEncodeAgree := by
  constructor
  case left =>
    rintro ⟨cfgValid, ab, buf, ga, shdn, value, outLen⟩ hFramed
    obtain ⟨⟨rfl, rfl⟩, hValue⟩ := framed_iff.1 hFramed
    rw [encode_eq, decode_frame, Nat.mod_eq_of_lt hValue]
  case right =>
    intro b0 b1
    obtain ⟨h0, h1⟩ := frame_of_bytes b0 b1
    refine ⟨_, rfl, framed_iff.2 ⟨⟨rfl, rfl⟩, (b0.extractLsb 3 0 ++ b1).isLt⟩, ?_⟩
    rw [encode_eq, h0, h1]

/-- The word of a frame determines its two bytes. -/
theorem word_injective {o o' : Outputs} (h : o.word = o'.word) : o.b0 = o'.b0 ∧ o.b1 = o'.b1 := by
  have hBytes : [o.b0, o.b1] = [o'.b0, o'.b1] := by rw [← frameBytes_word, h, frameBytes_word]
  simpa using hBytes

/-- A choice of the four flags and a 12-bit value, which a frame carries whole (R39). -/
abbrev Choice := Bool × Bool × Bool × Bool × Code

/-- The output ports after the legal invocation with these flags and this value. -/
def frameOfChoice (p : Choice) : Outputs :=
  ⟨statusOk, frameByte0 p.1 p.2.1 p.2.2.1 p.2.2.2.1 p.2.2.2.2.toNat, frameByte1 p.2.2.2.2.toNat⟩

/-- The flags and the value field the receiver reads from a word's two bytes. -/
def choiceOfBytes (b0 b1 : Byte) : Choice :=
  (b0.getLsbD 7, b0.getLsbD 6, b0.getLsbD 5, b0.getLsbD 4, b0.extractLsb 3 0 ++ b1)

/-- R39: no word is reserved. -/
theorem exists_frameOfChoice_word_eq (w : FrameWord) : ∃ p, (frameOfChoice p).word = w := by
  obtain ⟨h0, h1⟩ := frame_of_bytes (w.extractLsb 15 8) (w.extractLsb 7 0)
  refine ⟨choiceOfBytes (w.extractLsb 15 8) (w.extractLsb 7 0), ?_⟩
  rw [frameOfChoice, choiceOfBytes, Outputs.word, h0, h1]
  exact BitVec.extractLsb'_append_extractLsb' (w := 8) (len := 8)

theorem frameOfChoice_word_injective {p q : Choice} (h : (frameOfChoice p).word = (frameOfChoice q).word) :
    p = q := by
  obtain ⟨h0, h1⟩ := word_injective h
  obtain ⟨hAb, hBuf, hGa, hShdn, hValue⟩ := frame_injective h0 h1
  rw [Nat.mod_eq_of_lt p.2.2.2.2.isLt, Nat.mod_eq_of_lt q.2.2.2.2.isLt] at hValue
  exact Prod.ext hAb (Prod.ext hBuf (Prod.ext hGa (Prod.ext hShdn (BitVec.eq_of_toNat_eq hValue))))

/-- Settles O20: some choice has the word as its frame, and no two choices share a frame's word. -/
theorem everyWordIsTheFrameOfOneInvocation : Obligations.EveryWordIsTheFrameOfOneInvocation := by
  intro w s
  obtain ⟨p, hp⟩ := exists_frameOfChoice_word_eq w
  refine ⟨p, ⟨_, exec_legal _ _ _ _ _ s, hp⟩, ?_⟩
  rintro q ⟨t, hExec, hWord⟩
  rw [exec_legal] at hExec
  obtain rfl := Host.Outcome.next.inj hExec
  exact frameOfChoice_word_injective (hWord.trans hp.symm)

/-- Settles O19: the bytes on the ports are those of the frame table, and the receiver reads them. -/
theorem receiverReadsBackTheInvocation : Obligations.ReceiverReadsBackTheInvocation := by
  intro ab buf ga shdn value s
  exact ⟨_, exec_legal ab buf ga shdn value s, (encode_eq true ab buf ga shdn value 2).symm,
    decode_frame ab buf ga shdn value⟩

/-- Settles O22: the transmission order's two bytes are those stored at indices 0 and 1. -/
theorem wireOrderIsIndexOrder : Obligations.WireOrderIsIndexOrder := by
  intro ab buf ga shdn value s
  obtain ⟨t, hExec, _, hIndex0, hIndex1, _⟩ := exec_legal_stores ab buf ga shdn value s
  exact ⟨t, hExec, by rw [hIndex0, hIndex1]; rfl⟩

/-- Settles O17: the decoder's patterns are the byte strings of no, one, two and more bytes. -/
theorem decodeTakesExactlyTwoBytes : Obligations.DecodeTakesExactlyTwoBytes := by
  intro bytes
  match bytes with
  | [] | [_] => exact ⟨fun _ => rfl, fun h => by simp at h, fun h => by simp at h⟩
  | [_, _] => exact ⟨fun h => by simp at h, fun _ => ⟨_, rfl⟩, fun h => by simp at h⟩
  | _ :: _ :: _ :: _ => exact ⟨fun h => by simp at h, fun h => by simp at h, fun _ => rfl⟩

/-- Settles O16: each of the ten words, evaluated. -/
theorem vectorWordsDecode : Obligations.VectorWordsDecode := by
  unfold Obligations.VectorWordsDecode
  decide

end Sys2Proof.Machine

/-! The effect of ENCODE on memory, outputs and status, form by form (40_encode.md R43; 60_exceptions.md R51 to R55),
and how its frame moves with the flags (30_encoding.md R36, R38). -/

namespace Sys2Proof.Machine

/-- Without a Configuration neither a flag nor the value is read (R15). -/
theorem exec_absent (ab buf ga shdn : Bool) (value outLen : Nat) (s : State) :
    exec (.encode false ab buf ga shdn value outLen) s = .next (raiseParamError .cfgAbsent outLen s) := rfl

theorem read_storeFrame_bufAddr (m : Memory) (s : State) (o : Outputs) {k : Nat} (h : k < 2) :
    (m.storeFrame s.bufBase o).read (bufAddr s k) = some (if k = 0 then o.b0 else o.b1) := by
  rw [read_storeFrame, bufAddr]
  interval_cases k <;> simp

theorem read_raiseParamError_bufAddr (cause : ParamCause) (s : State) {outLen k : Nat} (h : k < min outLen 2) :
    (raiseParamError cause outLen s).mem.read (bufAddr s k) = some (Config.freeByte (s.draws + 2 + k)) := by
  have hReach : bufAddr s k < s.bufBase + reachable outLen := Nat.add_lt_add_left h s.bufBase
  rw [read_raiseParamError, if_pos ⟨Nat.le_add_right _ _, hReach⟩, bufAddr, Nat.add_sub_cancel_left]

/-- A legal invocation stores the frame of its operands, an illegal one free values numbered by the draws: neither is a
function of memory. -/
theorem exec_ignores_mem (p : Ports) (s : State) (m : Memory) :
    ∃ t u, exec p.instr s = .next t ∧ exec p.instr { s with mem := m } = .next u ∧ u.out = t.out ∧
      ∀ k, k < min p.outLen 2 → u.mem.read (bufAddr s k) = t.mem.read (bufAddr s k) := by
  by_cases h : p.instr.legal = true
  · refine ⟨_, _, exec_of_legal s h, exec_of_legal _ h, rfl, fun k hk => ?_⟩
    have h2 : k < 2 := by omega
    exact (read_storeFrame_bufAddr m s p.frame h2).trans (read_storeFrame_bufAddr s.mem s p.frame h2).symm
  · refine ⟨_, _, exec_of_illegal .badLength s h, exec_of_illegal .badLength _ h, rfl, fun k hk => ?_⟩
    exact (read_raiseParamError_bufAddr _ { s with mem := m } hk).trans (read_raiseParamError_bufAddr _ s hk).symm

/-- Settles O3: `exec_ignores_mem` at the ports that carry the operands. -/
theorem noInvocationDependsOnMemory : Obligations.NoInvocationDependsOnMemory := by
  intro cfgValid ab buf ga shdn value outLen s m
  exact exec_ignores_mem ⟨cfgValid, ab, buf, ga, shdn, value, outLen⟩ s m

/-- Settles O4: what every invocation keeps, read outside the buffer at the addresses that are none of its reachable
ones; and only the parameter error draws. -/
theorem encodeChangesOnlyOutputsReachableBytesAndDraws :
    Obligations.EncodeChangesOnlyOutputsReachableBytesAndDraws := by
  intro cfgValid ab buf ga shdn value outLen s
  obtain ⟨t, hExec⟩ := exec_completes ⟨cfgValid, ab, buf, ga, shdn, value, outLen⟩ s
  obtain ⟨hVw, hPorts, hBase, hCalls⟩ := exec_fieldsKept hExec
  refine ⟨t, hExec, hVw, hPorts, hBase, hCalls, fun a ha => ?memory, fun hLegal => ?draws⟩
  case memory => exact exec_read_outside hExec (outside_of_ne_bufAddr ha)
  case draws =>
    obtain ⟨_, _, rfl⟩ | ⟨hIllegal, _⟩ := exec_next hExec
    · rfl
    · exact absurd (legal_iff.2 hLegal) hIllegal

/-- Settles O5: the illegal invocation is `raiseParamError`, whose free bytes lie at the reachable indices. -/
theorem parameterErrorDrawsOnlyReachableBytes : Obligations.ParameterErrorDrawsOnlyReachableBytes := by
  intro cfgValid ab buf ga shdn value outLen s hIllegal
  obtain ⟨cause, hExec⟩ := exec_illegal s hIllegal
  refine ⟨_, hExec, rfl, fun k h2 hLen => ?inside, fun a ha => ?outside, rfl, rfl, rfl, rfl, ?draws⟩
  case inside => exact read_raiseParamError_bufAddr cause s (by omega)
  case outside =>
    have hOutside : ∀ k, k < min outLen 2 → a ≠ bufAddr s k := fun k hk => ha k (by omega) (by omega)
    exact exec_read_outside (p := ⟨cfgValid, ab, buf, ga, shdn, value, outLen⟩) hExec
      (outside_of_ne_bufAddr hOutside)
  case draws => exact Nat.le_refl _

/-- Settles O6: the status of the legal form is 0 and of every other form 1, two different codes. -/
theorem statusTellsExactlyTheTwoCauses : Obligations.StatusTellsExactlyTheTwoCauses := by
  have hCodes : statusOk ≠ statusParamError := by decide
  refine ⟨hCodes, fun cfgValid ab buf ga shdn value outLen s => ?_⟩
  by_cases hLegal : cfgValid = true ∧ outLen = 2
  · obtain ⟨rfl, rfl⟩ := hLegal
    exact ⟨_, exec_legal ab buf ga shdn value s, by simp [hCodes], by simp⟩
  · obtain ⟨cause, hExec⟩ := exec_illegal s hLegal
    have hCause : cfgValid = false ∨ outLen ≠ 2 := by
      rwa [not_and_or, Bool.not_eq_true] at hLegal
    exact ⟨_, hExec, by simp [hCause], by simp [hCodes.symm, hLegal]⟩

/-- Settles O7: each of the three is the one error of R53, and its outputs do not depend on the length. -/
theorem bothCausesAtOnceAreOneError : Obligations.BothCausesAtOnceAreOneError := by
  intro ab buf ga shdn value outLen s hLength
  have hLong := exec_of_illegal (p := ⟨true, ab, buf, ga, shdn, value, outLen⟩) .cfgAbsent s
    fun h => hLength (legal_iff.1 h).2
  exact ⟨_, _, exec_absent ab buf ga shdn value outLen s, hLong, exec_absent ab buf ga shdn value 2 s, rfl⟩

/-- Settles O8: both runs are the error `exec_absent` names, in which no flag and no value occurs. -/
theorem absentConfigurationReadsNoFlag : Obligations.AbsentConfigurationReadsNoFlag := by
  intro ab buf ga shdn ab' buf' ga' shdn' value value' outLen s
  exact ⟨_, exec_absent ab buf ga shdn value outLen s, exec_absent ab' buf' ga' shdn' value' outLen s⟩

/-- A byte just written is found again over a write to a higher address, whether or not memory is canonical. -/
theorem write_write_write_same (m : Memory) {a c : Nat} (v w : Byte) (h : a < c) :
    ((m.write a v).write c w).write a v = (m.write a v).write c w := by
  have hca : ¬c < a := Nat.lt_asymm h
  induction m with
  | nil => simp [Memory.write, hca, Nat.ne_of_gt h]
  | cons x m ih =>
    obtain ⟨k, b⟩ := x
    rcases Nat.lt_trichotomy a k with hk | rfl | hk
    · simp [Memory.write, hk, hca, Nat.ne_of_gt h]
    · simp [Memory.write, hca, Nat.ne_of_gt h]
    · have hck : k < c := Nat.lt_trans hk h
      simp [Memory.write, Nat.lt_asymm hk, Nat.ne_of_gt hk, Nat.lt_asymm hck, Nat.ne_of_gt hck, ih]

/-- R28: storing a frame twice is storing it once. -/
theorem storeFrame_storeFrame_same (m : Memory) (base : Nat) (o : Outputs) :
    (m.storeFrame base o).storeFrame base o = m.storeFrame base o := by
  unfold Memory.storeFrame
  rw [write_write_write_same _ _ _ (Nat.lt_succ_self base), write_write_same]

/-- Settles O12: the second run stores the frame already stored and drives the outputs already driven. -/
theorem legalEncodeIsIdempotent : Obligations.LegalEncodeIsIdempotent := by
  intro i s hLegal
  rw [← instr_ofInstr i] at hLegal ⊢
  refine ⟨_, exec_of_legal s hLegal, ?_⟩
  rw [exec_of_legal _ hLegal]
  simp only [storeFrame_storeFrame_same]

/-- Settles O14: `b0[7:4]` is the flag nibble, and `b0[3:0]` and b1 are made of the value alone. -/
theorem flagsAndValueDoNotMix : Obligations.FlagsAndValueDoNotMix := by
  intro ab buf ga shdn ab' buf' ga' shdn' value value' s
  refine ⟨_, _, _, exec_legal ab buf ga shdn value s, exec_legal ab buf ga shdn value' s,
    exec_legal ab' buf' ga' shdn' value s, ?valueChanged, ?flagsChanged, rfl⟩
  case valueChanged => simp only [frameByte0_flags]
  case flagsChanged => simp only [frameByte0_value]

/-- Flipping bits of the flag nibble flips bits of the upper half of byte 0. -/
theorem frameByte0_xor {ab buf ga shdn ab' buf' ga' shdn' : Bool} {mask : BitVec 4} (value : Nat)
    (h : flagNibble ab' buf' ga' shdn' = flagNibble ab buf ga shdn ^^^ mask) :
    frameByte0 ab' buf' ga' shdn' value = frameByte0 ab buf ga shdn value ^^^ (mask ++ 0#4 : Byte) := by
  rw [frameByte0, frameByte0, h, BitVec.xor_append]
  congr 1
  exact (BitVec.xor_zero).symm

/-- Each flag is one bit of the nibble (R38). -/
theorem flagNibble_not (ab buf ga shdn : Bool) :
    flagNibble (!ab) buf ga shdn = flagNibble ab buf ga shdn ^^^ 8#4 ∧
    flagNibble ab (!buf) ga shdn = flagNibble ab buf ga shdn ^^^ 4#4 ∧
    flagNibble ab buf (!ga) shdn = flagNibble ab buf ga shdn ^^^ 2#4 ∧
    flagNibble ab buf ga (!shdn) = flagNibble ab buf ga shdn ^^^ 1#4 := by
  revert ab buf ga shdn
  decide

/-- Settles O15: an inverted flag is a flipped bit of the nibble, so of byte 0's upper half; b1 holds no flag. -/
theorem oneFlagMovesOneOutputBit : Obligations.OneFlagMovesOneOutputBit := by
  intro ab buf ga shdn value s
  obtain ⟨hAb, hBuf, hGa, hShdn⟩ := flagNibble_not ab buf ga shdn
  refine ⟨_, _, _, _, _, exec_legal ab buf ga shdn value s, exec_legal (!ab) buf ga shdn value s,
    exec_legal ab (!buf) ga shdn value s, exec_legal ab buf (!ga) shdn value s,
    exec_legal ab buf ga (!shdn) value s, ?_, ?_, ?_, ?_⟩
  · simp only [frameByte0_xor value hAb]; rfl
  · simp only [frameByte0_xor value hBuf]; rfl
  · simp only [frameByte0_xor value hGa]; rfl
  · simp only [frameByte0_xor value hShdn]; rfl

end Sys2Proof.Machine

/-! What a step runs, refuses and leaves alone (00_scope.md R8; 70_reset_and_hazards.md R63, R65, R67). -/

namespace Sys2Proof.Machine

theorem widthAllowed_iff {vw : Nat} : widthAllowed vw = true ↔ 12 ≤ vw := decide_eq_true_iff

theorem fitsPort_iff {p : Ports} {vw : Nat} : p.instr.fitsPort vw = true ↔ p.value < 2 ^ vw := decide_eq_true_iff

/-- Settles O23: `step_run`, whose sampled state is the one described. -/
theorem stepRunsTheSampledInvocation : Obligations.StepRunsTheSampledInvocation := by
  intro s c rest hs hHeld hWf
  exact step_run hs ⟨hHeld, hWf⟩

/-- Two bytes decode to a framed invocation, so a row's word does. -/
theorem framed_of_decodeTableWord {w : Nat} {i : Instr} (h : decodeTableWord 16 w = some i) : i.framed = true := by
  have hBits : 16 ≤ 8 * Config.frameLen := Nat.le_refl 16
  rw [decodeTableWord, if_pos hBits, frameBytes] at h
  obtain ⟨j, hDecode, hFramed, _⟩ := decodeAndEncodeAgree.2 ((BitVec.ofNat 16 (w % 2 ^ 16)).extractLsb 15 8)
    ((BitVec.ofNat 16 (w % 2 ^ 16)).extractLsb 7 0)
  rw [hDecode] at h
  exact Option.some.inj h ▸ hFramed

/-- A value below 4096 fits every port R8 admits. -/
theorem wellFormed_of_framed {i : Instr} {vw : Nat} (hWidth : 12 ≤ vw) (h : i.framed = true) :
    i.wellFormed vw = true := by
  obtain ⟨cfgValid, ab, buf, ga, shdn, value, outLen⟩ := i
  obtain ⟨_, hValue⟩ := framed_iff.1 h
  have hPow : 2 ^ 12 ≤ 2 ^ vw := Nat.pow_le_pow_right (by omega) hWidth
  exact wellFormed_iff.2 ⟨widthAllowed_iff.2 hWidth, decide_eq_true (Nat.lt_of_lt_of_le hValue hPow)⟩

theorem withFetchWord_eq {s : State} {nbits w : Nat} {i : Instr} (h : decodeTableWord nbits w = some i) :
    s.withFetchWord nbits w = { s with calls := ⟨Ports.ofInstr i, s.bufBase, true⟩ :: s.calls.tail } := by
  rw [State.withFetchWord, h]

/-- Settles O24: the placed call is held and well formed, so the step runs it. -/
theorem stepRunsTheDecodedWord : Obligations.StepRunsTheDecodedWord := by
  intro s w i hWidth hDecode
  have hWf := wellFormed_of_framed hWidth (framed_of_decodeTableWord hDecode)
  refine ⟨hWf, ?_⟩
  rw [withFetchWord_eq hDecode, step_run rfl ⟨rfl, by rwa [instr_ofInstr]⟩, instr_ofInstr]
  rfl

/-- Settles O25: `configRefusal` comes first, then the two tests of `callRefusal` in their order. -/
theorem stepRefusesWhatTheSpecDoesNotAdmit : Obligations.StepRefusesWhatTheSpecDoesNotAdmit := by
  constructor
  case left =>
    intro s hNarrow
    exact step_narrow (decide_eq_false (Nat.not_le.2 hNarrow))
  case right =>
    intro s c rest hs
    refine ⟨fun hWidth hWide => ?tooWide, fun hWidth hFits hHeld => ?notHeld⟩
    case tooWide =>
      have hFits : c.ports.instr.fitsPort s.vw = false := decide_eq_false (Nat.not_lt.2 hWide)
      exact step_refuse (widthAllowed_iff.2 hWidth) hs (by simp [callRefusal, hFits])
    case notHeld =>
      exact step_refuse (widthAllowed_iff.2 hWidth) hs (by simp [callRefusal, fitsPort_iff.2 hFits, hHeld])

/-- Settles O26: an idle step is `idle`. -/
theorem idleStepKeepsTheBuffers : Obligations.IdleStepKeepsTheBuffers := by
  intro s hWidth hs
  exact ⟨_, step_idle (widthAllowed_iff.2 hWidth) hs, rfl, rfl, rfl, rfl, rfl, hs, Nat.le_refl _⟩

/-- A step goes on or refuses. -/
theorem step_next_or_refused (s : State) : (∃ t, step s = .next t) ∨ ∃ r, step s = .refused r := by
  cases hWidth : widthAllowed s.vw with
  | false => exact .inr ⟨_, step_narrow hWidth⟩
  | true =>
    cases hs : s.calls with
    | nil => exact .inl ⟨_, step_idle hWidth hs⟩
    | cons c rest =>
      cases hc : callRefusal s.vw c with
      | some r => exact .inr ⟨r, step_refuse hWidth hs hc⟩
      | none =>
        obtain ⟨hHeld, hFits⟩ := callRefusal_eq_none.1 hc
        obtain ⟨t, hExec⟩ := exec_completes c.ports (sample c rest s)
        exact .inl ⟨t, (step_run hs ⟨hHeld, wellFormed_iff.2 ⟨hWidth, hFits⟩⟩).trans hExec⟩

/-- A step that takes a call and goes on has run it. -/
theorem step_next_call {s t : State} {c : Call} {rest : List Call} (hs : s.calls = c :: rest)
    (h : step s = .next t) : exec c.ports.instr (sample c rest s) = .next t := by
  obtain ⟨_, ⟨hNil, _⟩ | ⟨_, _, hCons, _, _, hExec⟩⟩ := step_next h
  · cases hs.symm.trans hNil
  · cases hs.symm.trans hCons
    exact hExec

/-- Settles O27: a write outside faults, but a step goes on or refuses; and the call it runs keeps what lies outside its
buffer. -/
theorem noStepWritesOutsideTheBuffer : Obligations.NoStepWritesOutsideTheBuffer := by
  refine ⟨fun outLen index v s h => ?write, fun s f h => ?noFault, fun s t c rest hs hStep a ha => ?outside⟩
  case write => exact if_neg (Nat.not_lt.2 h)
  case noFault =>
    obtain ⟨t, ht⟩ | ⟨r, hr⟩ := step_next_or_refused s
    · cases ht.symm.trans h
    · cases hr.symm.trans h
  case outside => exact exec_read_outside (step_next_call hs hStep) ha

/-- R8: the effect of an invocation does not look at VW. -/
theorem exec_withVw {p : Ports} {s t : State} (n : Nat) (h : exec p.instr s = .next t) :
    exec p.instr { s with vw := n } = .next { t with vw := n } := by
  obtain ⟨hLegal, _, rfl⟩ | ⟨hIllegal, cause, rfl⟩ := exec_next h
  · exact exec_of_legal _ hLegal
  · exact exec_of_illegal cause _ hIllegal

/-- Settles O28: both machines run the call, whose effect does not look at VW. -/
theorem effectsDoNotDependOnVW : Obligations.EffectsDoNotDependOnVW := by
  intro s n c rest hs hHeld hWf hWfN
  obtain ⟨t, hExec⟩ := exec_completes c.ports (sample c rest s)
  refine ⟨t, (step_run hs ⟨hHeld, hWf⟩).trans hExec, ?_⟩
  rw [step_run (s := { s with vw := n }) hs ⟨hHeld, hWfN⟩]
  exact exec_withVw n hExec

/-- Settles O29: every field of the reset state, read off. -/
theorem resetMeetsTheInvariant : Obligations.ResetMeetsTheInvariant := by
  refine ⟨⟨List.Pairwise.nil, ?width, ?value⟩, ⟨?width, fun c hc => ?calls⟩, rfl, rfl, fun a => rfl⟩
  case width => decide
  case value => decide
  case calls => exact absurd hc List.not_mem_nil

end Sys2Proof.Machine

/-! Runs of ready calls that end in a legal one: its frame alone is on the ports and in its buffer
(10_state.md R13, R19; 60_exceptions.md R58; 20_memory.md R30). -/

namespace Sys2Proof.Machine

/-- The whole effect of a step that takes a ready, legal call. -/
theorem step_of_legal {s : State} {c : Call} {rest : List Call} (h : Ready s) (hs : s.calls = c :: rest)
    (hLegal : c.ports.instr.legal = true) :
    step s = .next { sample c rest s with
      out := c.ports.frame, mem := s.mem.storeFrame c.bufBase c.ports.frame } :=
  (step_of_ready h hs).trans (exec_of_legal _ hLegal)

/-- Calls taken from ready ones are ready, whatever state holds them. -/
theorem ready_of_subset {s u : State} (h : Ready s) (hVw : u.vw = s.vw) (hCalls : ∀ c ∈ u.calls, c ∈ s.calls) :
    Ready u :=
  ⟨by rw [hVw]; exact h.widthIsAllowed, fun c hc => by rw [hVw]; exact h.callsReady c (hCalls c hc)⟩

/-- Settles O32: the calls before the last run without a stop, and the last, legal one drives its frame from whatever
state they left, as it does from reset. -/
theorem lastInvocationAloneDecidesTheOutputs : Obligations.LastInvocationAloneDecidesTheOutputs := by
  intro s before c hReady hs hLegal
  obtain ⟨u, hRun, hReadyU, hCallsU, hVw⟩ := ready_run before.length hReady
  rw [hs, List.drop_left] at hCallsU
  have hLast := step_of_legal hReadyU hCallsU hLegal
  have hReadyReset : Ready { State.reset with vw := s.vw, calls := [c] } :=
    ready_of_subset hReadyU hVw.symm fun d hd => hCallsU ▸ hd
  exact ⟨_, _, (run_add 1 hRun).trans (run_next 0 hLast), step_of_legal hReadyReset rfl hLegal, rfl, rfl⟩

theorem step_mem_wf {s t : State} (h : step s = .next t) (hm : s.mem.wf) : t.mem.wf := by
  obtain ⟨_, ⟨_, rfl⟩ | ⟨c, rest, _, _, _, hExec⟩⟩ := step_next h
  · exact hm
  · exact exec_mem_wf hExec hm

/-- A frame hides what its two bytes held before. -/
theorem storeFrame_congr {m n : Memory} {base : Nat} (o : Outputs) (hm : m.wf) (hn : n.wf)
    (h : ∀ a, a < base ∨ base + 2 ≤ a → m.read a = n.read a) : m.storeFrame base o = n.storeFrame base o := by
  refine memory_ext (storeFrame_wf _ _ hm) (storeFrame_wf _ _ hn) fun a => ?_
  by_cases ha : a < base ∨ base + 2 ≤ a
  · rw [read_storeFrame_outside _ _ ha, read_storeFrame_outside _ _ ha, h a ha]
  · obtain rfl | rfl : a = base ∨ a = base + 1 := by omega
    all_goals simp [read_storeFrame]

/-- Settles O33: the first call changes no byte outside the buffer, and the frame stored over it hides what it left
inside. -/
theorem anErrorLeavesNoTrace : Obligations.AnErrorLeavesNoTrace := by
  intro s first c hm hReady hBase hLegal
  obtain ⟨v, hFirst, hReadyV, hCallsV, _⟩ := ready_step hReady
  have hAlone : Ready { s with calls := [c] } := ready_of_subset hReady rfl fun d hd => List.mem_cons_of_mem _ hd
  refine ⟨_, _, (run_next 1 hFirst).trans (run_next 0 (step_of_legal hReadyV hCallsV hLegal)),
    step_of_legal hAlone rfl hLegal, rfl, ?_⟩
  refine storeFrame_congr _ (step_mem_wf hFirst hm) hm fun a ha => ?_
  exact exec_read_outside (step_next_call rfl hFirst) (a := a) (by rw [sample_bufBase, hBase]; omega)

/-- R30: frames stored at buffers that share no byte may change places. -/
theorem storeFrame_comm {m : Memory} {base base' : Nat} (o o' : Outputs) (hm : m.wf)
    (h : base + 2 ≤ base' ∨ base' + 2 ≤ base) :
    (m.storeFrame base o).storeFrame base' o' = (m.storeFrame base' o').storeFrame base o := by
  refine memory_ext (storeFrame_wf _ _ (storeFrame_wf _ _ hm)) (storeFrame_wf _ _ (storeFrame_wf _ _ hm)) fun a => ?_
  by_cases ha : a < base ∨ base + 2 ≤ a
  · rw [read_storeFrame_outside _ o ha, read_storeFrame (m.storeFrame base o), read_storeFrame m base',
      read_storeFrame_outside m o ha]
  · have ha' : a < base' ∨ base' + 2 ≤ a := by omega
    rw [read_storeFrame_outside _ o' ha', read_storeFrame m base, read_storeFrame (m.storeFrame base' o'),
      read_storeFrame_outside m o' ha']

/-- Two ready, legal calls in a row leave both frames, the second's on the ports. -/
theorem run_two_legal {s : State} {c d : Call} (h : Ready { s with calls := [c, d] })
    (hc : c.ports.instr.legal = true) (hd : d.ports.instr.legal = true) :
    ∃ t : State, Sys2Proof.core.run 2 { s with calls := [c, d] } = .next t ∧ t.out = d.ports.frame ∧
      t.mem = (s.mem.storeFrame c.bufBase c.ports.frame).storeFrame d.bufBase d.ports.frame := by
  have hFirst := step_of_legal h rfl hc
  have hReady := ready_of_subset (u := { sample c [d] s with
    out := c.ports.frame, mem := s.mem.storeFrame c.bufBase c.ports.frame }) h rfl
    fun e he => List.mem_cons_of_mem _ he
  exact ⟨_, (run_next 1 hFirst).trans (run_next 0 (step_of_legal hReady rfl hd)), rfl, rfl⟩

/-- Settles O34: both orders leave both frames in memory, where they share no byte, and the second call's frame on the
ports. -/
theorem invocationsOnSeparateBuffersCommute : Obligations.InvocationsOnSeparateBuffersCommute := by
  intro s c d hm hReady hc hd hApart
  have hSwapped : Ready { s with calls := [d, c] } :=
    ready_of_subset hReady rfl fun e he => (List.Perm.swap c d []).subset he
  have hC : Ready { s with calls := [c] } := ready_of_subset hSwapped rfl fun e he => List.mem_cons_of_mem _ he
  have hD : Ready { s with calls := [d] } := ready_of_subset hReady rfl fun e he => List.mem_cons_of_mem _ he
  obtain ⟨t, hRunT, hOutT, hMemT⟩ := run_two_legal hReady hc hd
  obtain ⟨u, hRunU, hOutU, hMemU⟩ := run_two_legal hSwapped hd hc
  refine ⟨t, u, _, _, hRunT, hRunU, ?_, step_of_legal hC rfl hc, step_of_legal hD rfl hd, hOutU, hOutT⟩
  rw [hMemT, hMemU, storeFrame_comm _ _ hm hApart]

end Sys2Proof.Machine

/-! The text form of R42: each reader takes what the writer of its part wrote, and leaves the text after it. -/

namespace Sys2Proof.Machine

theorem expectText_append (pre t : List Char) : expectText pre (pre ++ t) = some t := by
  induction pre with
  | nil => rfl
  | cons c pre ih => simpa [expectText] using ih

theorem digitValue_digitChar {d : Nat} (h : d < 16) : digitValue (digitChar d) = some d := by
  interval_cases d <;> rfl

theorem baseDigit_digitChar {base d : Nat} (hBase : base ≤ 16) (h : d < base) :
    baseDigit base (digitChar d) = some d := by
  simp [baseDigit, digitValue_digitChar (Nat.lt_of_lt_of_le h hBase), h]

/-- Reading a written number reads its digits and goes on with the text after it. -/
theorem readNumber_numberText_append {base fuel n : Nat} (hTwo : 2 ≤ base) (hBase : base ≤ 16) (h : n < fuel)
    (t : List Char) : readNumber base (numberText base fuel n ++ t) = some (takeDigits base n t) := by
  induction fuel generalizing n t with
  | zero => cases h
  | succ fuel ih =>
    rw [numberText]
    split_ifs with hDigit
    · simp [readNumber, baseDigit_digitChar hBase hDigit]
    · have hQuotient : n / base < fuel := by
        have : n / base < n := Nat.div_lt_self (by omega) hTwo
        omega
      have hLast : baseDigit base (digitChar (n % base)) = some (n % base) :=
        baseDigit_digitChar hBase (Nat.mod_lt _ (by omega))
      rw [List.append_assoc, ih hQuotient, List.singleton_append, takeDigits, hLast]
      simp only [Nat.div_add_mod]

/-- A comma ends a number. -/
theorem takeDigits_comma (base n : Nat) (pre t : List Char) :
    takeDigits base n (',' :: pre ++ t) = (n, ',' :: pre ++ t) := rfl

theorem flagDigit_flagChar (flag : Bool) : flagDigit (flagChar flag) = some flag := by
  cases flag <;> rfl

/-- Reading the flags field that is written for an invocation. -/
theorem readFlags_flagsText_append (cfgValid ab buf ga shdn : Bool) (t : List Char) :
    readFlags ((if cfgValid then [flagChar ab, flagChar buf, flagChar ga, flagChar shdn] else ['-']) ++ t) =
      some (if cfgValid then some (ab, buf, ga, shdn) else none, t) := by
  cases cfgValid with
  | false => rfl
  | true =>
    have hDash : flagChar ab ≠ '-' := by cases ab <;> decide
    simp only [if_true, List.cons_append, List.nil_append]
    rw [readFlags]
    · simp [flagDigit_flagChar]
    · exact hDash

/-- Settles O21: the parser meets, in order, the six parts the printer wrote. -/
theorem textFormReadsBack : Obligations.TextFormReadsBack := by
  rintro vw ⟨cfgValid, ab, buf, ga, shdn, value, outLen⟩ hFits
  have hValue : value < 2 ^ vw := of_decide_eq_true hFits
  have hLength := readNumber_numberText_append (base := 10) (by decide) (by decide) (Nat.lt_succ_self outLen) []
  rw [List.append_nil] at hLength
  simp only [parseInvocation, printInvocation, asWritten, List.append_assoc, Option.bind_eq_bind, Option.bind_some,
    expectText_append, readFlags_flagsText_append,
    readNumber_numberText_append (base := 16) (by decide) (by decide) (Nat.lt_succ_self value),
    takeDigits_comma, hLength]
  exact if_pos ⟨rfl, hValue⟩

end Sys2Proof.Machine
